-- ==== Sys2Proof/Word.lean ====
section
/-! DEFINITION. The word types of the block (00_scope R13): bytes of 8 bits, 16-bit checksums and lengths,
32-bit command words and response words. -/

namespace Sys2Proof

/-- A byte (00_scope R11, R13). -/
abbrev Byte := BitVec 8

/-- A 16-bit value: the CRC register, a checksum, a frame's length field (00_scope R13). -/
abbrev Half := BitVec 16

/-- A 32-bit value: a command word, or one of the response words V0, V1, V2 (00_scope R13). -/
abbrev Word := BitVec 32

end Sys2Proof
end

