-- ==== Sys2Proof/Config.lean ====
section
/-! DEFINITION. What the spec leaves OPEN: the parameters an implementation fixes (00_scope R8, R9) and the
free draw of 41_frame_codec R95. None of the opaque constants has a body, so no proof can know its value.
The fixed constants of 00_scope R7 stand in Machine/Constants.lean. -/

namespace Sys2Proof.Config

/-- DESIGN CHOICE (entry 1), safe: nothing is known of this number but that it is one; `capacity` brings it
into the range of 00_scope R8. -/
opaque capacityChoice : Nat

/-- The smallest capacity C that 00_scope R8 allows (one frame). -/
abbrev capacityMin : Nat := 256

/-- The largest capacity C that 00_scope R8 allows. -/
abbrev capacityMax : Nat := 0xFFFFFFFF

/-- The capacity C of the instance whose reset state is `State.reset` (00_scope R8, OPEN): some value from
256 to 2^32 - 1, and every one of them is possible. Entry 1. -/
def capacity : Nat := capacityChoice % (capacityMax + 1 - capacityMin) + capacityMin

/-- IO_SLOT_ID (00_scope R9, OPEN), 0 to 3: used by the ENCODE_IO pseudo-instruction alone. Entry 2. -/
opaque ioSlotId : BitVec 2

/-- `checksumDraw k n` is the outcome of the n-th free Boolean of the stream k (00_scope R12 `draw`, 41_frame_codec
R95): nothing constrains it, and nothing relates two of them, in one stream or in two. Each instance draws from a
stream of its own. Entry 3. -/
opaque checksumDraw : Nat → Nat → Bool

end Sys2Proof.Config
end

