-- ==== Sys2Proof/Machine/Constants.lean ====
section
/-! DEFINITION. The constants of 00_scope R7 and the frame offsets of 00_scope R10, each in one place
(D34: the literals are unaudited, entry 12). They stand under Machine/ so that a correction can be made here. -/

namespace Sys2Proof

/-- F, the frame size in bytes. -/
abbrev frameSize : Nat := 256
/-- PMAX, the payload region's size and the largest declared length of Signal, Metric and ENCODE. -/
abbrev payloadMax : Nat := 248
/-- IOLEN, the only legal declared length of GenericIO. -/
abbrev ioLength : Nat := 8
/-- NSLOT: slot ids are 0 to NSLOT - 1. -/
abbrev slotCount : Nat := 4
/-- START, the start sentinel. -/
abbrev startMarker : Byte := 0x55#8
/-- STOP, the stop sentinel. -/
abbrev stopMarker : Byte := 0xAA#8
/-- POLY, the CRC polynomial. -/
abbrev crcPoly : Half := 0x1021#16
/-- INIT, the CRC's initial register value. -/
abbrev crcInit : Half := 0xEF4A#16
/-- T_SIGNAL, the slot type code of Signal. -/
abbrev typeSignal : Byte := 0#8
/-- T_METRIC, the slot type code of Metric. -/
abbrev typeMetric : Byte := 1#8
/-- T_IO, the slot type code of GenericIO. -/
abbrev typeIo : Byte := 2#8

/-- OFF_START. -/
abbrev offStart : Nat := 0
/-- OFF_ID. -/
abbrev offId : Nat := 1
/-- OFF_TYPE. -/
abbrev offType : Nat := 2
/-- OFF_LEN (2 bytes, low byte first). -/
abbrev offLen : Nat := 3
/-- OFF_PAY (248 bytes). -/
abbrev offPay : Nat := 5
/-- OFF_CK (2 bytes, low byte first). -/
abbrev offCk : Nat := 253
/-- OFF_STOP. -/
abbrev offStop : Nat := 255

end Sys2Proof
end

