-- ==== Sys2Proof/Syntax.lean ====
section
/-! DEFINITION. The commands of the block: a transaction as the host presents it (30_encoding R60), the eleven
commands of the opcode map with their operands (30_encoding R62, R65), and the pseudo-instructions and list
items of the assembler syntax (30_encoding R75, R77). -/

namespace Sys2Proof

/-- One transaction: the command word CMD and the data-in bytes DIN (30_encoding R60). -/
structure Transaction where
  cmd : Word
  din : List Byte
deriving DecidableEq, Repr

/-- What the host can do to the block: present a transaction (30_encoding R60) or reset it (70_reset R190). -/
inductive HostInput where
  | transaction (t : Transaction)
  | reset
deriving DecidableEq, Repr

/-- The eleven operations of the opcode map (30_encoding R62). -/
inductive Op where
  | nop | cksum | encode | decode | push | status | peek | seek | flush | rx | wrctrl
deriving DecidableEq, Repr

/-- A command with its operands, one constructor per row of the opcode table. Where the row's CNT is the length
of DIN (CKSUM, ENCODE, PUSH, RX: 30_encoding R75) the bytes are held once and CNT is their number (entry 8). -/
inductive Instr where
  /-- NOP, 44_control R160. -/
  | nop
  /-- CKSUM, 40_checksum R82. -/
  | cksum (din : List Byte)
  /-- ENCODE, 41_frame_codec R91: ID, TY and the payload bytes. -/
  | encode (id : BitVec 2) (ty : BitVec 2) (din : List Byte)
  /-- DECODE, 41_frame_codec R98: the frame. -/
  | decode (din : List Byte)
  /-- PUSH, 42_fifo R124. -/
  | push (din : List Byte)
  /-- STATUS, 42_fifo R125. -/
  | status
  /-- PEEK, 42_fifo R126. -/
  | peek (cnt : Half)
  /-- SEEK, 42_fifo R127. -/
  | seek (cnt : Half)
  /-- FLUSH, 42_fifo R128. -/
  | flush
  /-- RX, 43_synchronizer R143. -/
  | rx (din : List Byte)
  /-- WRCTRL, 44_control R161: W_SLOT_EN, W_IO_EN, W_CLR_OVF. -/
  | wrctrl (slotEn : Bool) (ioEn : Bool) (clrOvf : Bool)
deriving DecidableEq, Repr

/-- The pseudo-instructions of 30_encoding R77. -/
inductive Pseudo where
  | scan
  | len
  /-- `ENCODE_IO` with its 8 bytes. -/
  | encodeIo (din : List Byte)
  | enable
  | disable
deriving DecidableEq, Repr

/-- An item of the assembler's byte lists (30_encoding R75). -/
inductive ListItem where
  | hex (b : Byte)
  | zeros (n : Nat)
  | rep (b : Byte) (n : Nat)
  /-- `seq(a, n)`: a, a+1, ..., each taken mod 256. -/
  | seq (a : Byte) (n : Nat)
deriving DecidableEq, Repr

end Sys2Proof
end

