-- ==== Sys2Proof/Decode.lean ====
section
/-! DEFINITION. From a transaction to a command and back: the opcode map of 30_encoding R62, the checks of
44_control R162 to R164, the operands of 30_encoding R65, the encoder of 30_encoding R76, the pseudo-instructions
of R77 and the byte lists of R75. -/

namespace Sys2Proof

/-- Why a transaction spells no command; the block answers ILLEGAL to both. -/
inductive DecodeError where
  /-- CMD matches no row of the opcode map (44_control R162). -/
  | commandWord
  /-- CMD matches a row, and DIN has not the length E(CMD) (44_control R163). -/
  | dataLength
deriving DecidableEq, Repr

/-- One row of the opcode map (30_encoding R62). -/
structure OpcodeRow where
  op : Op
  value : Word
  mask : Word
deriving DecidableEq, Repr

/-- The opcode map (30_encoding R62). -/
def opcodeRows : List OpcodeRow :=
  [ ⟨.nop,    0x00000000#32, 0xFFFFFFFF#32⟩,
    ⟨.cksum,  0x00000001#32, 0xFF0000FF#32⟩,
    ⟨.encode, 0x00000002#32, 0xFF00000F#32⟩,
    ⟨.decode, 0x00000003#32, 0xFFFFFFFF#32⟩,
    ⟨.push,   0x00000004#32, 0xFF0000FF#32⟩,
    ⟨.status, 0x00000005#32, 0xFFFFFFFF#32⟩,
    ⟨.peek,   0x00000006#32, 0xFF0000FF#32⟩,
    ⟨.seek,   0x00000007#32, 0xFF0000FF#32⟩,
    ⟨.flush,  0x00000008#32, 0xFFFFFFFF#32⟩,
    ⟨.rx,     0x00000009#32, 0xFF0000FF#32⟩,
    ⟨.wrctrl, 0x0000000A#32, 0xFFFFF8FF#32⟩ ]

/-- `(CMD & mask) == match` (30_encoding R62). -/
def OpcodeRow.matchesWord (r : OpcodeRow) (cmd : Word) : Bool := cmd &&& r.mask == r.value

/-- The operation a command word names, or none for a word that matches no row (30_encoding R62). At most one
row can match, so the first is the only one. -/
def opOf (cmd : Word) : Option Op := (opcodeRows.find? (fun r => r.matchesWord cmd)).map (·.op)

/-- ID = CMD[5:4] (30_encoding R61). -/
def idField (cmd : Word) : BitVec 2 := cmd.extractLsb' 4 2
/-- TY = CMD[7:6] (30_encoding R61). -/
def tyField (cmd : Word) : BitVec 2 := cmd.extractLsb' 6 2
/-- CNT = CMD[23:8] (30_encoding R61). -/
def cntField (cmd : Word) : Half := cmd.extractLsb' 8 16

/-- The DIN length of one row (30_encoding R62, the column E(CMD)). -/
def Op.dataLength (cmd : Word) : Op → Nat
  | .nop => 0
  | .cksum => (cntField cmd).toNat
  | .encode => (cntField cmd).toNat
  | .decode => frameSize
  | .push => (cntField cmd).toNat
  | .status => 0
  | .peek => 0
  | .seek => 0
  | .flush => 0
  | .rx => (cntField cmd).toNat
  | .wrctrl => 0

/-- E(CMD), the length DIN must have, known from CMD alone; 0 for an illegal word (30_encoding R64). -/
def expectedLength (cmd : Word) : Nat :=
  match opOf cmd with
  | some op => op.dataLength cmd
  | none => 0

/-- The command with its operands taken from CMD and DIN (30_encoding R65). -/
def Op.instr (t : Transaction) : Op → Instr
  | .nop => .nop
  | .cksum => .cksum t.din
  | .encode => .encode (idField t.cmd) (tyField t.cmd) t.din
  | .decode => .decode t.din
  | .push => .push t.din
  | .status => .status
  | .peek => .peek (cntField t.cmd)
  | .seek => .seek (cntField t.cmd)
  | .flush => .flush
  | .rx => .rx t.din
  | .wrctrl => .wrctrl (t.cmd.getLsbD 8) (t.cmd.getLsbD 9) (t.cmd.getLsbD 10)

/-- The decoder: the command-word check (44_control R162), then the DIN-length check (R163), in that order
(R164). Total on every transaction. -/
def decode (t : Transaction) : Except DecodeError Instr :=
  match opOf t.cmd with
  | none => .error .commandWord
  | some op => if t.din.length = op.dataLength t.cmd then .ok (op.instr t) else .error .dataLength

/-- A command word from its fields: OP | ID << 4 | TY << 6 | CNT << 8, with RSV = 0 (30_encoding R61, R76). -/
def commandWord (op : BitVec 4) (id ty : BitVec 2) (cnt : Half) : Word :=
  op.setWidth 32 ||| (id.setWidth 32 <<< 4) ||| (ty.setWidth 32 <<< 6) ||| (cnt.setWidth 32 <<< 8)

/-- CNT of a list of data-in bytes (30_encoding R75). -/
def countOf (din : List Byte) : Half := BitVec.ofNat 16 din.length

/-- The transaction that spells a command (30_encoding R75, R76). -/
def encode : Instr → Transaction
  | .nop => ⟨commandWord 0x0#4 0 0 0, []⟩
  | .cksum din => ⟨commandWord 0x1#4 0 0 (countOf din), din⟩
  | .encode id ty din => ⟨commandWord 0x2#4 id ty (countOf din), din⟩
  | .decode din => ⟨commandWord 0x3#4 0 0 0, din⟩
  | .push din => ⟨commandWord 0x4#4 0 0 (countOf din), din⟩
  | .status => ⟨commandWord 0x5#4 0 0 0, []⟩
  | .peek cnt => ⟨commandWord 0x6#4 0 0 cnt, []⟩
  | .seek cnt => ⟨commandWord 0x7#4 0 0 cnt, []⟩
  | .flush => ⟨commandWord 0x8#4 0 0 0, []⟩
  | .rx din => ⟨commandWord 0x9#4 0 0 (countOf din), din⟩
  | .wrctrl s i c =>
    ⟨0xA#32 ||| ((BitVec.ofBool s).setWidth 32 <<< 8) ||| ((BitVec.ofBool i).setWidth 32 <<< 9)
      ||| ((BitVec.ofBool c).setWidth 32 <<< 10), []⟩

/-- A pseudo-instruction's expansion (30_encoding R77); IO is the slot type code 2. -/
def Pseudo.expand : Pseudo → Instr
  | .scan => .rx []
  | .len => .status
  | .encodeIo din => .encode Config.ioSlotId 2#2 din
  | .enable => .wrctrl true true false
  | .disable => .wrctrl false false false

/-- The bytes of one item of a byte list (30_encoding R75). -/
def ListItem.bytes : ListItem → List Byte
  | .hex b => [b]
  | .zeros n => List.replicate n 0#8
  | .rep b n => List.replicate n b
  | .seq a n => (List.range n).map (fun k => a + BitVec.ofNat 8 k)

/-- A byte list `{...}` (30_encoding R75). -/
def listBytes (items : List ListItem) : List Byte := items.flatMap ListItem.bytes

/-- The transaction whose bits are `w`: CMD is bits 31..0, the data-in bytes count on from bit 32, and every bit
from `nbits` on is 0. It carries E(CMD) data-in bytes (30_encoding R64, R74). Entry 6. -/
def tableTransaction (nbits w : Nat) : Transaction :=
  let bits := w % 2 ^ nbits
  let cmd : Word := BitVec.ofNat 32 bits
  ⟨cmd, (List.range (expectedLength cmd)).map (fun k => BitVec.ofNat 8 (bits >>> (32 + 8 * k)))⟩

/-- The command the decoder reads from an instruction whose bits are `w`, none where it refuses. -/
def decodeTableWord (nbits w : Nat) : Option Instr := (decode (tableTransaction nbits w)).toOption

end Sys2Proof
end

