-- ==== Sys2Proof/Machine/State.lean ====
section
/-! DEFINITION. The state of the block (10_state R20), the response and event records (30_encoding R66 to R69),
the host's side of the interface (00_scope R6), the outcomes of a step, and the state after reset (10_state R34). -/

namespace Sys2Proof.Machine

/-! ### Outputs of a transaction -/

/-- The STATUS of a response (30_encoding R67). The codes 6 to 15 are never produced, so they have no name here. -/
inductive Status where
  | ok
  | illegal
  | payloadTooLarge
  | invalid
  | capacityExceeded
  | underflow
deriving DecidableEq, Repr

/-- The REASON of a response (30_encoding R68). The codes 6 to 15 are never produced, so they have no name here. -/
inductive Reason where
  | none
  | marker
  | checksum
  | length
  | ioLength
  | type
deriving DecidableEq, Repr

/-- The response record RESP; a field its command's rule does not set is 0 (30_encoding R66). -/
structure Response where
  status : Status := .ok
  reason : Reason := .none
  v0 : Word := 0#32
  v1 : Word := 0#32
  v2 : Word := 0#32
deriving DecidableEq, Repr

/-- An event record: a copy of the declared-length payload (30_encoding R69). -/
inductive Event where
  | slot (slotId : BitVec 2) (slotType : Byte) (length : Half) (payload : List Byte)
  | io (length : Half) (payload : List Byte)
deriving DecidableEq, Repr

/-- What a transaction returns: (RESP, DOUT, EVENTS); DOUT and EVENTS are empty unless a rule sets them
(30_encoding R60, R66). -/
structure Result where
  resp : Response
  dout : List Byte := []
  events : List Event := []
deriving DecidableEq, Repr

/-! ### State -/

/-- A byte store in canonical form: addresses strictly rising, no entry equal to what an unlisted address reads
as (`fillByte`). Entry 4. -/
abbrev Memory := List Host.Cell

/-- What a byte of MEM that the store does not list reads as. DESIGN CHOICE (entry 4), unsafe: 10_state R34 leaves
the bytes unspecified; no command returns one (10_state R28, R33). -/
def fillByte : Byte := 0#8

/-- CTRL, the control register (10_state R30). -/
structure Ctrl where
  slotEn : Bool
  ioEn : Bool
deriving DecidableEq, Repr

/-- One instance of the block: its persistent state (10_state R20) and its own capacity (10_state R35). -/
structure Block where
  /-- C, configuration: no transaction writes it (10_state R32). -/
  capacity : Nat
  /-- MEM[0..C) (10_state R23). -/
  mem : Memory
  /-- HEAD (10_state R24). -/
  head : Nat
  /-- TAIL (10_state R25). -/
  tail : Nat
  /-- LEN (10_state R26). -/
  len : Nat
  /-- OVF (10_state R29). -/
  ovf : Bool
  /-- CTRL (10_state R30). -/
  ctrl : Ctrl
deriving DecidableEq, Repr

/-- The machine: the block, and the model's own record of what stands around it. -/
structure State where
  block : Block
  /-- Which stream of free Booleans this machine draws from; no command and no reset writes it, and no result depends on it
  but through a draw. The MODEL's own field, no identifier within the block (60_exceptions R180), entry 3. -/
  drawStream : Nat
  /-- How many free Booleans have been drawn (00_scope R12 `draw`). The MODEL's own field, entry 3. -/
  draws : Nat
  /-- What the host has still to present, the next input first (70_reset R193). The MODEL's own field, entry 5. -/
  pending : List HostInput
  /-- What the transactions so far returned, oldest first (30_encoding R60). The MODEL's own field, entry 5. -/
  results : List Result
deriving DecidableEq, Repr

/-! ### Outcomes -/

/-- Why the machine stops with a fault. There is no constructor, because nothing raises one: the block has no
traps, no fatal error state and no transaction that hangs (60_exceptions R170); each of its errors is a STATUS
code of a next state. -/
inductive Fault
deriving DecidableEq, Repr

/-- Why an instruction has no meaning. -/
inductive Refusal where
  /-- Raised by an arm of `exec` whose instruction has no meaning yet, and by nothing else; safe. No arm raises
  it in this model. -/
  | notModelled (mnemonic : String)
deriving DecidableEq, Repr

/-! ### Reset -/

/-- The block after reset, for a given capacity (10_state R34): MEM's bytes are unspecified there, and the model
lists none of them (entry 4). -/
def Block.atReset (capacity : Nat) : Block where
  capacity := capacity
  mem := []
  head := 0
  tail := 0
  len := 0
  ovf := false
  ctrl := ⟨false, false⟩

/-- The machine after reset, for a given capacity: no transaction yet, so no result (70_reset R190). DESIGN CHOICE (entry
3): no draw has been taken, and a machine on its own draws from stream 0; several instances get a stream each
(`System.atReset`). -/
def State.atReset (capacity : Nat) (drawStream : Nat := 0) : State where
  block := Block.atReset capacity
  drawStream := drawStream
  draws := 0
  pending := []
  results := []

/-- The machine right after reset; its capacity is the OPEN parameter C (00_scope R8, entry 1). -/
def State.reset : State := State.atReset Config.capacity

end Sys2Proof.Machine
end

