-- ==== Sys2Proof/Machine/Flags.lean ====
section
/-! DEFINITION. The flag OVF (10_state R29), the control register CTRL (10_state R30) and the STATUS view of both
(10_state R31). -/

namespace Sys2Proof.Machine

/-- OVF after a push that dropped `drop` bytes: set when it dropped one, sticky otherwise (42_fifo R120). -/
def ovfAfterPush (drop : Nat) (ovf : Bool) : Bool := if drop > 0 then true else ovf

/-- OVF after FifoFlush (42_fifo R123). -/
def ovfAfterFlush : Bool := false

/-- OVF after WRCTRL: cleared when W_CLR_OVF is 1, else unchanged (44_control R161). -/
def ovfAfterWrctrl (clrOvf : Bool) (ovf : Bool) : Bool := if clrOvf then false else ovf

/-- CTRL after WRCTRL: both bits written, whatever they were (44_control R161). -/
def ctrlAfterWrctrl (slotEn ioEn : Bool) : Ctrl := ⟨slotEn, ioEn⟩

/-- V2 of STATUS: SLOT_EN in bit 0, IO_EN in bit 1, OVF in bit 8, every other bit 0 (10_state R31). -/
def statusFlags (ctrl : Ctrl) (ovf : Bool) : Word :=
  (BitVec.ofBool ctrl.slotEn).setWidth 32 ||| ((BitVec.ofBool ctrl.ioEn).setWidth 32 <<< 1)
    ||| ((BitVec.ofBool ovf).setWidth 32 <<< 8)

end Sys2Proof.Machine
end

