-- ==== Sys2Proof/Machine/Operands.lean ====
section
/-! DEFINITION. How operands and results are taken from and put into words and byte lists (00_scope R11,
30_encoding R65, R66, 20_memory R42). All extensions are zero-extensions. -/

namespace Sys2Proof.Machine

/-- The STATUS code of 30_encoding R67. -/
def Status.code : Status → BitVec 4
  | .ok => 0#4
  | .illegal => 1#4
  | .payloadTooLarge => 2#4
  | .invalid => 3#4
  | .capacityExceeded => 4#4
  | .underflow => 5#4

/-- The REASON code of 30_encoding R68. -/
def Reason.code : Reason → BitVec 4
  | .none => 0#4
  | .marker => 1#4
  | .checksum => 2#4
  | .length => 3#4
  | .ioLength => 4#4
  | .type => 5#4

/-- `le16(lo, hi)`: a 16-bit value stored as two bytes, the low one first (00_scope R11). -/
def le16 (lo hi : Byte) : Half := lo.setWidth 16 ||| (hi.setWidth 16 <<< 8)

/-- `v[7:0]`. -/
def lowByte (v : Half) : Byte := v.extractLsb' 0 8
/-- `v[15:8]`. -/
def highByte (v : Half) : Byte := v.extractLsb' 8 8

/-- `xs[i]` of a byte list; 0x00 past its end, which no rule reads (entry 15). -/
def byteAt (xs : List Byte) (i : Nat) : Byte := xs.getD i 0#8

/-- `xs[a..b)` (00_scope R11). -/
def slice (xs : List Byte) (a b : Nat) : List Byte := (xs.drop a).take (b - a)

/-- `zeros(n)` (00_scope R11). -/
def zeros (n : Nat) : List Byte := List.replicate n 0#8

/-- A count as a 32-bit response word. -/
def countWord (n : Nat) : Word := BitVec.ofNat 32 n

/-- V0 of a successful DECODE: slot id, slot type and length in one word (41_frame_codec R98). -/
def packMessage (slotId slotType : Byte) (length : Half) : Word :=
  slotId.setWidth 32 ||| (slotType.setWidth 32 <<< 8) ||| (length.setWidth 32 <<< 16)

end Sys2Proof.Machine
end

