-- ==== Sys2Proof/Machine/Ops.lean ====
section
/-! DEFINITION. The named operations every meaning is written in: MEM's bytes (20_memory R41), the four FIFO
primitives (42_fifo R120 to R123), how a transaction ends (00_scope R12), the free draw, and reset (70_reset R190). -/

namespace Sys2Proof.Machine

/-! ### The byte store -/

/-- MEM[addr]. -/
def Memory.read : Memory → Nat → Byte
  | [], _ => fillByte
  | (a, v) :: rest, addr => if a = addr then v else Memory.read rest addr

/-- `MEM[addr] <- b`, keeping the canonical form: writing `fillByte` removes the entry. -/
def Memory.write : Memory → Nat → Byte → Memory
  | [], addr, b => if b = fillByte then [] else [(addr, b)]
  | (a, v) :: rest, addr, b =>
    if addr < a then (if b = fillByte then (a, v) :: rest else (addr, b) :: (a, v) :: rest)
    else if addr = a then (if b = fillByte then rest else (addr, b) :: rest)
    else (a, v) :: Memory.write rest addr b

/-- The canonical form, with every listed address at least `low`. -/
def Memory.wfFrom : Nat → Memory → Bool
  | _, [] => true
  | low, (a, v) :: rest => decide (low ≤ a) && decide (v ≠ fillByte) && Memory.wfFrom (a + 1) rest

/-- The canonical form: addresses strictly rising, no entry equal to what an unlisted address reads as. -/
def Memory.wf (m : Memory) : Bool := Memory.wfFrom 0 m

/-- `MemRead(addr, n)`: n bytes from `addr` on, each index taken mod C (00_scope R12, 20_memory R41). -/
def memRead (capacity : Nat) (m : Memory) (addr n : Nat) : List Byte :=
  (List.range n).map (fun k => m.read ((addr + k) % capacity))

/-- `MemWrite(addr, |v|, v)`: the bytes of `v` from `addr` on, each index taken mod C (00_scope R12,
20_memory R41). -/
def memWrite (capacity : Nat) (m : Memory) (addr : Nat) : List Byte → Memory
  | [] => m
  | b :: bs => memWrite capacity (m.write (addr % capacity) b) (addr + 1) bs

/-! ### The FIFO primitives -/

/-- Q, the buffered bytes, oldest first (10_state R27). -/
def Block.content (b : Block) : List Byte := memRead b.capacity b.mem b.head b.len

/-- How many bytes of a push fit: `acc` of FifoPush (42_fifo R120). -/
def Block.accepts (b : Block) (d : List Byte) : Nat := min d.length (b.capacity - b.len)

/-- How many bytes of a push are dropped: `drop` of FifoPush (42_fifo R120). -/
def Block.drops (b : Block) (d : List Byte) : Nat := d.length - b.accepts d

/-- FifoPush (42_fifo R120): the bytes that fit go in at TAIL, the rest are dropped. -/
def Block.fifoPush (d : List Byte) (b : Block) : Block :=
  { b with
    mem := memWrite b.capacity b.mem b.tail (d.take (b.accepts d))
    tail := (b.tail + b.accepts d) % b.capacity
    len := b.len + b.accepts d
    ovf := ovfAfterPush (b.drops d) b.ovf }

/-- FifoPeek (42_fifo R121): the n oldest bytes; the caller ensures n ≤ LEN. -/
def Block.fifoPeek (n : Nat) (b : Block) : List Byte := memRead b.capacity b.mem b.head n

/-- FifoSeek (42_fifo R122): the n oldest bytes go; the caller ensures n ≤ LEN. -/
def Block.fifoSeek (n : Nat) (b : Block) : Block :=
  { b with head := (b.head + n) % b.capacity, len := b.len - n }

/-- FifoFlush (42_fifo R123). MEM is not cleared. -/
def Block.fifoFlush (b : Block) : Block :=
  { b with head := 0, tail := 0, len := 0, ovf := ovfAfterFlush }

/-- The reset action on a block in any state (70_reset R190). MEM is unspecified then; DESIGN CHOICE (entry 7): the
model leaves its bytes where they are. -/
def Block.resetAction (b : Block) : Block :=
  { b with head := 0, tail := 0, len := 0, ovf := false, ctrl := ⟨false, false⟩ }

/-! ### How a transaction ends -/

/-- The machine with another block state. -/
def State.withBlock (s : State) (b : Block) : State := { s with block := b }

/-- The machine with the transaction's (RESP, DOUT, EVENTS) returned to the host and the event sink. -/
def State.respond (s : State) (r : Result) : State := { s with results := s.results ++ [r] }

/-- `complete S(fields)` (00_scope R12): every state write and every emitted event is kept. With status OK it is
the `return` of 00_scope R12. -/
def State.complete (s : State) (resp : Response) (dout : List Byte := []) (events : List Event := []) :
    Host.Outcome State Fault Refusal :=
  .next (s.respond ⟨resp, dout, events⟩)

/-- `raise S(info)` (00_scope R12), the block's one way to report an error without effect: it ends the transaction
before any state is written, with every field the rule does not name 0, DOUT and EVENTS empty. -/
def State.raise (s : State) (status : Status) (reason : Reason := .none) (v0 : Word := 0#32) :
    Host.Outcome State Fault Refusal :=
  .next (s.respond { resp := { status := status, reason := reason, v0 := v0 } })

/-- `raise ILLEGAL()` (44_control R162, R163). -/
def State.raiseIllegal (s : State) : Host.Outcome State Fault Refusal := s.raise .illegal

/-! ### The free draw -/

/-- The value the next `draw` gives (00_scope R12): a free Boolean of the machine's own stream, so that nothing relates it
to a draw of another instance. DESIGN CHOICE (entry 3) in its form alone: the value is free. -/
def State.nextDraw (s : State) : Bool := Config.checksumDraw s.drawStream s.draws

/-- The machine after a draw, or after none. -/
def State.afterDraw (s : State) (drawn : Bool) : State :=
  { s with draws := if drawn then s.draws + 1 else s.draws }

end Sys2Proof.Machine
end

