-- ==== Sys2Proof/Machine/Control.lean ====
section
/-! DEFINITION. The control commands NOP and WRCTRL (44_control). -/

namespace Sys2Proof.Machine

/-- NOP (44_control R160). -/
def execNop (s : State) : Host.Outcome State Fault Refusal := s.complete {}

/-- WRCTRL (44_control R161): both enable bits written, OVF cleared if asked. -/
def execWrctrl (slotEn ioEn clrOvf : Bool) (s : State) : Host.Outcome State Fault Refusal :=
  (s.withBlock
    { s.block with
      ctrl := ctrlAfterWrctrl slotEn ioEn
      ovf := ovfAfterWrctrl clrOvf s.block.ovf }).complete {}

end Sys2Proof.Machine
end

