-- ==== Sys2Proof/Machine/Fifo.lean ====
section
/-! DEFINITION. The commands that expose the circular FIFO: PUSH, STATUS, PEEK, SEEK, FLUSH (42_fifo). -/

namespace Sys2Proof.Machine

/-- PUSH (42_fifo R124): V0 bytes accepted, V1 dropped; CAPACITY_EXCEEDED keeps the bytes that fit. -/
def execPush (din : List Byte) (s : State) : Host.Outcome State Fault Refusal :=
  (s.withBlock (s.block.fifoPush din)).complete
    { status := if s.block.drops din > 0 then .capacityExceeded else .ok
      v0 := countWord (s.block.accepts din)
      v1 := countWord (s.block.drops din) }

/-- STATUS (42_fifo R125): V0 = LEN, V1 = C, V2 the flags. -/
def execStatus (s : State) : Host.Outcome State Fault Refusal :=
  s.complete
    { v0 := countWord s.block.len
      v1 := countWord s.block.capacity
      v2 := statusFlags s.block.ctrl s.block.ovf }

/-- PEEK (42_fifo R126): DOUT is the CNT oldest bytes; UNDERFLOW with V0 = LEN when there are fewer. -/
def execPeek (cnt : Half) (s : State) : Host.Outcome State Fault Refusal :=
  if cnt.toNat > s.block.len then s.raise .underflow (v0 := countWord s.block.len)
  else s.complete { v0 := cnt.setWidth 32 } (dout := s.block.fifoPeek cnt.toNat)

/-- SEEK (42_fifo R127): the CNT oldest bytes go, V0 is the new LEN; UNDERFLOW with V0 = LEN when there are
fewer. -/
def execSeek (cnt : Half) (s : State) : Host.Outcome State Fault Refusal :=
  if cnt.toNat > s.block.len then s.raise .underflow (v0 := countWord s.block.len)
  else
    (s.withBlock (s.block.fifoSeek cnt.toNat)).complete
      { v0 := countWord (s.block.fifoSeek cnt.toNat).len }

/-- FLUSH (42_fifo R128): the FIFO empty, OVF clear, CTRL as it was. -/
def execFlush (s : State) : Host.Outcome State Fault Refusal :=
  (s.withBlock s.block.fifoFlush).complete {}

end Sys2Proof.Machine
end

