-- ==== Sys2Proof/Machine/Checksum.lean ====
section
/-! DEFINITION. The checksum unit (40_checksum): a CRC, most significant bit first, and the command CKSUM. -/

namespace Sys2Proof.Machine

/-- `n` rounds: each shifts left by one, and XORs POLY in if bit 15 was set before the shift (40_checksum R80). -/
def crcRounds : Nat → Half → Half
  | 0, r => r
  | n + 1, r => if r.getLsbD 15 then crcRounds n ((r <<< 1) ^^^ crcPoly) else crcRounds n (r <<< 1)

/-- One byte: XOR it into the register's high byte, then 8 rounds (40_checksum R80). -/
def crcByte (r : Half) (b : Byte) : Half := crcRounds 8 (r ^^^ (b.setWidth 16 <<< 8))

/-- `Checksum(data)`: the register starts at INIT and takes the bytes in order; no final XOR (40_checksum R80, R81). -/
def checksum (data : List Byte) : Half := data.foldl crcByte crcInit

/-- CKSUM (40_checksum R82): V0 is the checksum of the data-in bytes. -/
def execCksum (din : List Byte) (s : State) : Host.Outcome State Fault Refusal :=
  s.complete { v0 := (checksum din).setWidth 32 }

end Sys2Proof.Machine
end

