-- ==== Sys2Proof/Machine/Codec.lean ====
section
/-! DEFINITION. The frame codec (41_frame_codec): Encode, Decode and the commands ENCODE and DECODE. -/

namespace Sys2Proof.Machine

/-- The decoded message (41_frame_codec R97). -/
structure SlotMessage where
  slotId : Byte
  slotType : Byte
  length : Half
  payload : List Byte
deriving DecidableEq, Repr

/-- What Decode answers (41_frame_codec R94). -/
inductive Verdict where
  | ok (m : SlotMessage)
  | invalid (r : Reason)
deriving DecidableEq, Repr

/-- `Encode(id, ty, L, pay)` with L = |pay| (41_frame_codec R90): the frame's fields in the order of 30_encoding
R70, the padding zero (R92); none is PayloadTooLarge. -/
def encodeFrame (id ty : Byte) (pay : List Byte) : Option (List Byte) :=
  if pay.length > payloadMax then none
  else
    let length : Half := BitVec.ofNat 16 pay.length
    let window := lowByte length :: highByte length :: pay
    let ck := checksum window
    some ([startMarker, id, ty] ++ window ++ zeros (payloadMax - pay.length)
      ++ [lowByte ck, highByte ck, stopMarker])

/-- The declared length L of a frame (20_memory R42). -/
def frameLength (fr : List Byte) : Half := le16 (byteAt fr offLen) (byteAt fr (offLen + 1))

/-- The embedded checksum CK of a frame (20_memory R42). -/
def frameChecksum (fr : List Byte) : Half := le16 (byteAt fr offCk) (byteAt fr (offCk + 1))

/-- The checksum window W(frame) = frame[3 .. 5+L) (30_encoding R71). -/
def frameWindow (fr : List Byte) : List Byte := slice fr offLen (offPay + (frameLength fr).toNat)

/-- The declared payload frame[5 .. 5+L) (41_frame_codec R97). -/
def framePayload (fr : List Byte) : List Byte := slice fr offPay (offPay + (frameLength fr).toNat)

/-- Step 1 of Decode: both sentinels (41_frame_codec R94). -/
def markersOk (fr : List Byte) : Bool := byteAt fr offStart == startMarker && byteAt fr offStop == stopMarker

/-- Whether the checksum window lies inside the frame (30_encoding R71). -/
def windowInside (fr : List Byte) : Bool := decide (offPay + (frameLength fr).toNat ≤ frameSize)

/-- Step 2 of Decode where the window lies inside the frame: the recomputed checksum is the embedded one
(41_frame_codec R94). -/
def checksumMatches (fr : List Byte) : Bool := checksum (frameWindow fr) == frameChecksum fr

/-- Steps 3, 4 and 5 of Decode, in order, and the message if none fails (41_frame_codec R94, R97). The slot id is not
checked (R99). -/
def laterSteps (fr : List Byte) : Verdict :=
  let length := frameLength fr
  let ty := byteAt fr offType
  if (ty = typeSignal ∨ ty = typeMetric) ∧ length.toNat > payloadMax then .invalid .length
  else if ty = typeIo ∧ length.toNat ≠ ioLength then .invalid .ioLength
  else if ¬(ty = typeSignal ∨ ty = typeMetric ∨ ty = typeIo) then .invalid .type
  else .ok ⟨byteAt fr offId, ty, length, framePayload fr⟩

/-- Step 2 of Decode decided by a draw (41_frame_codec R95), before the verdict `v` of the later steps: CHECKSUM if the
draw says the checksum fails, `v` if it says it holds. -/
def drawnStep (draw : Bool) (v : Verdict) : Verdict :=
  match v with
  | .invalid r => .invalid (if draw then r else .checksum)
  | .ok m => if draw then .ok m else .invalid .checksum

/-- `Decode(fr)` with the value `draw` that a free draw would give: the five steps in order, stopping at the first
that fails (41_frame_codec R94). -/
def decodeFrame (draw : Bool) (fr : List Byte) : Verdict :=
  if markersOk fr then
    if windowInside fr then (if checksumMatches fr then laterSteps fr else .invalid .checksum)
    else drawnStep draw (laterSteps fr)
  else .invalid .marker

/-- Whether Decode reaches the free draw: the markers are right and the window runs past the frame
(41_frame_codec R94, R95). -/
def drawsChecksum (fr : List Byte) : Bool := markersOk fr && !windowInside fr

/-- Decode as the machine runs it: the draw is the machine's next one. -/
def State.verdict (s : State) (fr : List Byte) : Verdict := decodeFrame s.nextDraw fr

/-- The machine after it has run Decode: only the draw is used up. -/
def State.afterDecode (s : State) (fr : List Byte) : State := s.afterDraw (drawsChecksum fr)

/-- ENCODE (41_frame_codec R91): DOUT is the frame, V0 the checksum written into it. -/
def execEncode (id ty : BitVec 2) (din : List Byte) (s : State) : Host.Outcome State Fault Refusal :=
  match encodeFrame (id.setWidth 8) (ty.setWidth 8) din with
  | none => s.raise .payloadTooLarge
  | some fr => s.complete { v0 := (frameChecksum fr).setWidth 32 } (dout := fr)

/-- DECODE (41_frame_codec R98): DOUT is the payload, V0 the packed message; an invalid frame gives INVALID with
its REASON. -/
def execDecode (din : List Byte) (s : State) : Host.Outcome State Fault Refusal :=
  match s.verdict din with
  | .invalid r => (s.afterDecode din).raise .invalid r
  | .ok m => (s.afterDecode din).complete { v0 := packMessage m.slotId m.slotType m.length } (dout := m.payload)

end Sys2Proof.Machine
end

