-- ==== Sys2Proof/Machine/Synchronizer.lean ====
section
/-! DEFINITION. The stream synchronizer (43_synchronizer): its mode, the fan-out, the scan loop, and RX. -/

namespace Sys2Proof.Machine

/-- The synchronizer's two conceptual states (43_synchronizer R140). -/
inductive SyncMode where
  | accumulating
  | scanning
deriving DecidableEq, Repr

/-- The mode is a function of LEN and is not stored (43_synchronizer R140). -/
def Block.syncMode (b : Block) : SyncMode := if b.len < frameSize then .accumulating else .scanning

/-- `Dispatch(m)`: the event emitted for a decoded message, if any (43_synchronizer R142). -/
def dispatch (ctrl : Ctrl) (m : SlotMessage) : List Event :=
  if m.slotId.toNat > slotCount - 1 then []
  else if m.slotType = typeSignal ∨ m.slotType = typeMetric then
    (if ctrl.slotEn then [.slot (m.slotId.extractLsb' 0 2) m.slotType m.length m.payload] else [])
  else (if ctrl.ioEn then [.io m.length m.payload] else [])

/-- What a scan leaves and counts (43_synchronizer R141). -/
structure ScanResult where
  state : State
  frames : Nat
  skips : Nat
  events : List Event
deriving DecidableEq, Repr

/-- The machine with the n oldest bytes sought past. -/
def State.seek (s : State) (n : Nat) : State := s.withBlock (s.block.fifoSeek n)

/-- `Scan()`, at most `fuel` iterations: a candidate that fails Decode is slid past by one byte, one that decodes
is consumed whole and dispatched (43_synchronizer R141). -/
def scanLoop : Nat → State → ScanResult
  | 0, s => ⟨s, 0, 0, []⟩
  | fuel + 1, s =>
    match s.block.syncMode with
    | .accumulating => ⟨s, 0, 0, []⟩
    | .scanning =>
      match s.verdict (s.block.fifoPeek frameSize) with
      | .invalid _ =>
        let rest := scanLoop fuel ((s.afterDecode (s.block.fifoPeek frameSize)).seek 1)
        { rest with skips := rest.skips + 1 }
      | .ok m =>
        let rest := scanLoop fuel ((s.afterDecode (s.block.fifoPeek frameSize)).seek frameSize)
        { rest with frames := rest.frames + 1, events := dispatch s.block.ctrl m ++ rest.events }

/-- `Scan()`. Each iteration takes at least one byte from the FIFO (43_synchronizer R144), so LEN iterations are
enough: the bound never ends the loop (entry 9). -/
def scan (s : State) : ScanResult := scanLoop s.block.len s

/-- RX (43_synchronizer R143): push the chunk, then scan, also when the push dropped bytes. V0 bytes accepted,
V1 frames consumed, V2 resync steps. -/
def execRx (din : List Byte) (s : State) : Host.Outcome State Fault Refusal :=
  let scanned := scan (s.withBlock (s.block.fifoPush din))
  scanned.state.complete
    { status := if s.block.drops din > 0 then .capacityExceeded else .ok
      v0 := countWord (s.block.accepts din)
      v1 := countWord scanned.frames
      v2 := countWord scanned.skips }
    (events := scanned.events)

end Sys2Proof.Machine
end

