-- ==== Sys2Proof/Machine/Dispatch.lean ====
section
/-! DEFINITION. One arm per command, each one call of its meaning. -/

namespace Sys2Proof.Machine

-- 44_control R164, step 3: the command's own rule.
def exec (i : Instr) (s : State) : Host.Outcome State Fault Refusal :=
  match i with
  | .nop => Sys2Proof.Machine.execNop s
  | .cksum din => Sys2Proof.Machine.execCksum din s
  | .encode id ty din => Sys2Proof.Machine.execEncode id ty din s
  | .decode din => Sys2Proof.Machine.execDecode din s
  | .push din => Sys2Proof.Machine.execPush din s
  | .status => Sys2Proof.Machine.execStatus s
  | .peek cnt => Sys2Proof.Machine.execPeek cnt s
  | .seek cnt => Sys2Proof.Machine.execSeek cnt s
  | .flush => Sys2Proof.Machine.execFlush s
  | .rx din => Sys2Proof.Machine.execRx din s
  | .wrctrl slotEn ioEn clrOvf => Sys2Proof.Machine.execWrctrl slotEn ioEn clrOvf s

end Sys2Proof.Machine
end

