-- ==== Sys2Proof/Machine/Transact.lean ====
section
/-! DEFINITION. How the block takes an input from the host and performs a transaction (30_encoding R60, 44_control
R162 to R164, 70_reset R190). -/

namespace Sys2Proof.Machine

/-- The host's next input, and the machine with that input presented; none while the host has nothing to present
(70_reset R193: one at a time). -/
def State.nextInput (s : State) : Option (HostInput × State) :=
  match s.pending with
  | [] => none
  | input :: rest => some (input, { s with pending := rest })

/-- The machine with `input` as the host's next input. -/
def State.present (s : State) (input : HostInput) : State := { s with pending := input :: s.pending }

/-- The reset action (70_reset R190): no response and no events. -/
def State.performReset (s : State) : State := s.withBlock s.block.resetAction

/-- One transaction: the command-word check and the DIN-length check, each answering ILLEGAL, then the command's
own rule (44_control R164). -/
def performTransaction (t : Transaction) (s : State) : Host.Outcome State Fault Refusal :=
  match decode t with
  | .error .commandWord => s.raiseIllegal
  | .error .dataLength => s.raiseIllegal
  | .ok i => exec i s

end Sys2Proof.Machine
end

