-- ==== Sys2Proof/Machine/Step.lean ====
section
/-! DEFINITION. One step: the block takes the host's next input and performs it whole (20_memory R47, R50). -/

namespace Sys2Proof.Machine

/-- One step. While the host presents nothing the block holds its state (60_exceptions R182; entry 5). -/
def step (s : State) : Host.Outcome State Fault Refusal :=
  match s.nextInput with
  | none => .next s
  | some (.reset, u) => .next u.performReset
  | some (.transaction t, u) => performTransaction t u

/-- The machine with the transaction of these bits as the host's next input (entry 6). -/
def State.withFetchWord (s : State) (nbits w : Nat) : State := s.present (.transaction (tableTransaction nbits w))

end Sys2Proof.Machine
end

