-- ==== Sys2Proof/Machine/Instances.lean ====
section
/-! DEFINITION. Several instances of the block, each with its own state, capacity and transactions (10_state R35,
60_exceptions R180). -/

namespace Sys2Proof.Machine

/-- A system of instances that share nothing. DESIGN CHOICE (entry 11): a list, one State per instance. -/
abbrev System := List State

/-- The system after reset: one instance per capacity, all in the reset state (60_exceptions R180). Instance `k` draws its
free Booleans from stream `k`, so that the draws of two instances are unrelated, as 00_scope R12 leaves them. DESIGN CHOICE
(entries 3 and 11): the number of the stream is the model's, and the block has no identifier. -/
def System.atReset (capacities : List Nat) : System := capacities.mapIdx fun k c => State.atReset c k

/-- The system after instance `k` has taken one step; a number that names no instance changes nothing. -/
def System.stepInstance (k : Nat) (sys : System) : System :=
  match sys[k]? with
  | none => sys
  | some s =>
    match step s with
    | .next t => sys.set k t
    | .fault _ => sys
    | .refused _ => sys

end Sys2Proof.Machine
end

