-- ==== Sys2Proof/WellFormed.lean ====
section
/-! DEFINITION. Which commands a transaction can spell: the data-in length must be one that CMD can declare
(30_encoding R61: CNT is 16 bits; R62: DECODE takes exactly F bytes). -/

namespace Sys2Proof

/-- The most data-in bytes CNT can declare (30_encoding R61). -/
abbrev countMax : Nat := 65535

/-- `true` for exactly the commands some transaction spells. -/
def Instr.wellFormed : Instr → Bool
  | .nop => true
  | .cksum din => decide (din.length ≤ countMax)
  | .encode _ _ din => decide (din.length ≤ countMax)
  | .decode din => decide (din.length = frameSize)
  | .push din => decide (din.length ≤ countMax)
  | .status => true
  | .peek _ => true
  | .seek _ => true
  | .flush => true
  | .rx din => decide (din.length ≤ countMax)
  | .wrctrl _ _ _ => true

end Sys2Proof
end

