-- ==== Sys2Proof/Safety.lean ====
section
/-! DEFINITION. The terms the statements use: the invariants of the block, what a valid frame is, the scan of a byte
stream as rules over lists, what an observer can tell of a state, and classes of commands. -/

namespace Sys2Proof.Machine

/-! ### Invariants -/

/-- C lies in the range of 00_scope R8. -/
abbrev Block.CapacityOk (b : Block) : Prop := 256 ≤ b.capacity ∧ b.capacity ≤ 2 ^ 32 - 1

/-- The three invariants of 42_fifo R129. -/
abbrev Block.CursorsOk (b : Block) : Prop :=
  b.len ≤ b.capacity ∧ b.head < b.capacity ∧ b.tail = (b.head + b.len) % b.capacity

/-- The store is in canonical form and lists no address outside MEM[0..C). The model's own invariant (entry 4). -/
abbrev Block.MemoryOk (b : Block) : Prop := b.mem.wf = true ∧ ∀ c ∈ b.mem, c.1 < b.capacity

/-- The states the statements quantify over where a rule supposes a block as the spec describes it. -/
abbrev State.Inv (s : State) : Prop := s.block.CapacityOk ∧ s.block.CursorsOk ∧ s.block.MemoryOk

/-! ### Frames, messages, events -/

/-- The four conditions of 41_frame_codec R96, for a frame of F bytes. -/
abbrev ValidFrame (fr : List Byte) : Prop :=
  fr.length = 256
    ∧ (byteAt fr 0 = 0x55#8 ∧ byteAt fr 255 = 0xAA#8)
    ∧ (frameLength fr).toNat ≤ 248
    ∧ checksum (slice fr 3 (5 + (frameLength fr).toNat)) = le16 (byteAt fr 253) (byteAt fr 254)
    ∧ ((byteAt fr 2 = 0#8 ∨ byteAt fr 2 = 1#8) ∨ (byteAt fr 2 = 2#8 ∧ (frameLength fr).toNat = 8))

/-- The message a frame holds (41_frame_codec R97). -/
def messageOf (fr : List Byte) : SlotMessage where
  slotId := byteAt fr 1
  slotType := byteAt fr 2
  length := frameLength fr
  payload := slice fr 5 (5 + (frameLength fr).toNat)

/-- The constraints of 30_encoding R69 on an event record. -/
def Event.Legal : Event → Prop
  | .slot _ slotType length payload =>
    (slotType = 0#8 ∨ slotType = 1#8) ∧ length.toNat ≤ 248 ∧ payload.length = length.toNat
  | .io length payload => length.toNat = 8 ∧ payload.length = 8

/-- The scan of a byte stream, as rules over lists (43_synchronizer R141, R142): from the stream `q` it emits `ev`,
consumes `frames` valid frames, slides `skips` times, and leaves `q'`. -/
inductive Scans (ctrl : Ctrl) : List Byte → List Event → Nat → Nat → List Byte → Prop where
  /-- Fewer than F bytes: accumulating. -/
  | stop (q : List Byte) (short : q.length < 256) : Scans ctrl q [] 0 0 q
  /-- The candidate is no valid frame: slide by one byte. -/
  | resync (q : List Byte) (ev : List Event) (frames skips : Nat) (q' : List Byte) (long : 256 ≤ q.length)
      (bad : ¬ ValidFrame (q.take 256)) (rest : Scans ctrl (q.drop 1) ev frames skips q') :
      Scans ctrl q ev frames (skips + 1) q'
  /-- The candidate is a valid frame: consume it whole and dispatch it. -/
  | accept (q : List Byte) (ev : List Event) (frames skips : Nat) (q' : List Byte) (long : 256 ≤ q.length)
      (good : ValidFrame (q.take 256)) (rest : Scans ctrl (q.drop 256) ev frames skips q') :
      Scans ctrl q (dispatch ctrl (messageOf (q.take 256)) ++ ev) (frames + 1) skips q'

/-! ### The checksum, bit by bit -/

/-- The bits of a byte, the most significant first (20_memory R43). -/
def bitsMsbFirst (b : Byte) : List Bool :=
  [b.getLsbD 7, b.getLsbD 6, b.getLsbD 5, b.getLsbD 4, b.getLsbD 3, b.getLsbD 2, b.getLsbD 1, b.getLsbD 0]

/-- One input bit into a bit-serial CRC register: the bit is compared with the register's bit 15 as that is shifted
out, and POLY goes in where they differ. -/
def crcBit (r : Half) (bit : Bool) : Half := if r.getLsbD 15 != bit then (r <<< 1) ^^^ 0x1021#16 else r <<< 1

/-- The bit-serial CRC of a byte sequence. -/
def checksumBits (data : List Byte) : Half := (data.flatMap bitsMsbFirst).foldl crcBit 0xEF4A#16

/-! ### What an observer can tell -/

/-- Two blocks with the same C, Q, OVF and CTRL (10_state R28). -/
def Block.SameView (a b : Block) : Prop :=
  a.capacity = b.capacity ∧ a.content = b.content ∧ a.ovf = b.ovf ∧ a.ctrl = b.ctrl

/-- Two machines that 10_state R28 says cannot be told apart: the blocks look the same, the same inputs are to come,
the same free values will be drawn, and the same was returned so far. -/
def State.SameView (s t : State) : Prop :=
  s.block.SameView t.block ∧ (s.drawStream = t.drawStream ∧ s.draws = t.draws)
    ∧ s.pending = t.pending ∧ s.results = t.results

/-! ### Words and commands -/

/-- The words 44_control R162 lists. -/
def ReservedWord (cmd : Word) : Prop :=
  11 ≤ (cmd.extractLsb' 0 4).toNat
    ∨ cmd.extractLsb' 24 8 ≠ 0#8
    ∨ (cmd.extractLsb' 0 4 ≠ 2#4 ∧ cmd.extractLsb' 0 4 ≠ 0xA#4
        ∧ (cmd.extractLsb' 4 2 ≠ 0#2 ∨ cmd.extractLsb' 6 2 ≠ 0#2))
    ∨ ((cmd.extractLsb' 0 4 = 0#4 ∨ cmd.extractLsb' 0 4 = 3#4 ∨ cmd.extractLsb' 0 4 = 5#4 ∨ cmd.extractLsb' 0 4 = 8#4)
        ∧ cmd.extractLsb' 8 16 ≠ 0#16)
    ∨ (cmd.extractLsb' 0 4 = 0xA#4 ∧ (cmd.extractLsb' 4 4 ≠ 0#4 ∨ cmd.extractLsb' 11 13 ≠ 0#13))

/-- The machine that has answered ILLEGAL and done nothing else (44_control R162, R163). -/
def State.answeredIllegal (s : State) : State := { s with results := s.results ++ [{ resp := { status := .illegal } }] }

/-- From `s` to `t` exactly the result `r` was returned, and the host's queue is as it was: what every command does
around its own effect (30_encoding R60). -/
abbrev State.Returned (s t : State) (r : Result) : Prop := t.results = s.results ++ [r] ∧ t.pending = s.pending

/-- The commands that change no state of the block (20_memory R48, 44_control R160). -/
def ReadsOnly : Instr → Bool
  | .nop => true
  | .cksum _ => true
  | .encode _ _ _ => true
  | .decode _ => true
  | .push _ => false
  | .status => true
  | .peek _ => true
  | .seek _ => false
  | .flush => false
  | .rx _ => false
  | .wrctrl _ _ _ => false

/-- The commands that 43_synchronizer R146 allows between two RX: those that change no state, and a WRCTRL that
leaves CTRL as it is. -/
def QuietFor (ctrl : Ctrl) : Instr → Bool
  | .nop => true
  | .cksum _ => true
  | .encode _ _ _ => true
  | .decode _ => true
  | .push _ => false
  | .status => true
  | .peek _ => true
  | .seek _ => false
  | .flush => false
  | .rx _ => false
  | .wrctrl s i _ => decide (ctrl = ⟨s, i⟩)

/-- Several commands one after another (20_memory R50). -/
def execAll : List Instr → State → Host.Outcome State Fault Refusal
  | [], s => .next s
  | i :: rest, s =>
    match exec i s with
    | .next t => execAll rest t
    | .fault r => .fault r
    | .refused r => .refused r

end Sys2Proof.Machine
end

