-- ==== Sys2Proof/Certificates/Slice0/Obligations.lean ====
section
/-! DEFINITION. The statements for the provers. Each docstring names the rule of spec/ it formalises; a statement that
rests on a choice of the model says so and names the log entry. -/

open Sys2Proof Sys2Proof.Machine

/-! ### Reset, the step, the host's interface -/

/-- 10_state R34, 42_fifo R129 ("They hold after reset"), with the model's own memory form (entry 4). -/
def Obligations.ResetMeetsInvariant : Prop := State.reset.Inv

/-- 70_reset R190: what reset leaves, that it returns nothing, that the block then accepts any transaction, and that it
runs nothing before the first one. That reset keeps C is 10_state R32. The model's choices: that the machine then takes a
step which changes nothing, and that the inputs behind a reset stay (entry 5), and that reset is an input of the host's
queue (entry 7). -/
def Obligations.ResetPutsEveryElement : Prop :=
  (∀ (s : State) (rest : List HostInput), s.pending = .reset :: rest →
    ∃ t, step s = .next t
      ∧ (t.block.head = 0 ∧ t.block.tail = 0 ∧ t.block.len = 0 ∧ t.block.ovf = false
        ∧ t.block.ctrl.slotEn = false ∧ t.block.ctrl.ioEn = false)
      ∧ t.block.capacity = s.block.capacity ∧ t.results = s.results ∧ t.pending = rest)
  ∧ (State.reset.block.head = 0 ∧ State.reset.block.tail = 0 ∧ State.reset.block.len = 0 ∧ State.reset.block.ovf = false
      ∧ State.reset.block.ctrl.slotEn = false ∧ State.reset.block.ctrl.ioEn = false ∧ State.reset.results = [])
  ∧ (∀ t : Transaction, ∃ u r, step (State.reset.present (.transaction t)) = .next u ∧ u.results = [r])
  ∧ step State.reset = .next State.reset

/-- 60_exceptions R182, 70_reset R190. That a machine with nothing presented takes a step that changes nothing is the
model's choice (entry 5). -/
def Obligations.IdleBlockHoldsState : Prop := ∀ s : State, s.pending = [] → step s = .next s

/-- 30_encoding R60, 44_control R164: a transaction that decodes is performed by the command's own rule, on the machine
from which the host has presented it. -/
def Obligations.StepRunsDecodedInstruction : Prop :=
  ∀ (s : State) (t : Transaction) (rest : List HostInput) (i : Instr),
    s.pending = .transaction t :: rest → decode t = .ok i → step s = exec i { s with pending := rest }

/-- 30_encoding R60, 60_exceptions R170 and R173: no step stops, every transaction returns exactly one response, and only
RX returns events. -/
def Obligations.EveryTransactionReturnsOneResult : Prop :=
  (∀ s : State, ∃ t, step s = .next t)
  ∧ ∀ (s : State) (t : Transaction) (rest : List HostInput), s.pending = .transaction t :: rest →
    ∃ u r, step s = .next u ∧ u.results = s.results ++ [r] ∧ u.pending = rest
      ∧ (r.events ≠ [] → ∃ d, decode t = .ok (.rx d))

/-- 10_state R35: a step of one instance leaves every other one as it was, and does to its own what `step` does. -/
def Obligations.InstancesShareNothing : Prop :=
  ∀ (k : Nat) (sys : System),
    (∀ j, j ≠ k → (System.stepInstance k sys)[j]? = sys[j]?)
    ∧ (∀ s t, sys[k]? = some s → step s = .next t → (System.stepInstance k sys)[k]? = some t)

/-! ### Encoding -/

/-- The example words of 30_encoding R76 and a word of each other family decode to their commands. -/
def Obligations.SampleWordsDecode : Prop :=
  decode ⟨0x00000362#32, [1#8, 2#8, 3#8]⟩ = .ok (.encode 2#2 1#2 [1#8, 2#8, 3#8])
  ∧ decode ⟨0x00000406#32, []⟩ = .ok (.peek 4#16)
  ∧ decode ⟨0x0000030A#32, []⟩ = .ok (.wrctrl true true false)
  ∧ decode ⟨0x00000201#32, [0#8, 0#8]⟩ = .ok (.cksum [0#8, 0#8])
  ∧ decode ⟨0x00000109#32, [0#8]⟩ = .ok (.rx [0#8])
  ∧ decode ⟨0x00000011#32, []⟩ = .error .commandWord

/-- 30_encoding R62, R65, R76: every command that a transaction can spell is read back from its transaction, with every
operand. -/
def Obligations.DecodeOfEncodeIsInstruction : Prop := ∀ i : Instr, i.wellFormed = true → decode (encode i) = .ok i

/-- 30_encoding R62 to R65: a legal transaction spells one command, and that command's transaction is the one read: no bit
of a legal word is dropped. -/
def Obligations.EncodeOfDecodeIsTransaction : Prop :=
  ∀ (t : Transaction) (i : Instr), decode t = .ok i → encode i = t ∧ i.wellFormed = true

/-- 30_encoding R62, row by row: match, mask and E(CMD); a word that matches no row is ILLEGAL. -/
def Obligations.OpcodeMapIsTheTable : Prop :=
  ∀ cmd : Word,
    (opOf cmd = some .nop ↔ cmd &&& 0xFFFFFFFF#32 = 0x00000000#32)
    ∧ (opOf cmd = some .cksum ↔ cmd &&& 0xFF0000FF#32 = 0x00000001#32)
    ∧ (opOf cmd = some .encode ↔ cmd &&& 0xFF00000F#32 = 0x00000002#32)
    ∧ (opOf cmd = some .decode ↔ cmd &&& 0xFFFFFFFF#32 = 0x00000003#32)
    ∧ (opOf cmd = some .push ↔ cmd &&& 0xFF0000FF#32 = 0x00000004#32)
    ∧ (opOf cmd = some .status ↔ cmd &&& 0xFFFFFFFF#32 = 0x00000005#32)
    ∧ (opOf cmd = some .peek ↔ cmd &&& 0xFF0000FF#32 = 0x00000006#32)
    ∧ (opOf cmd = some .seek ↔ cmd &&& 0xFF0000FF#32 = 0x00000007#32)
    ∧ (opOf cmd = some .flush ↔ cmd &&& 0xFFFFFFFF#32 = 0x00000008#32)
    ∧ (opOf cmd = some .rx ↔ cmd &&& 0xFF0000FF#32 = 0x00000009#32)
    ∧ (opOf cmd = some .wrctrl ↔ cmd &&& 0xFFFFF8FF#32 = 0x0000000A#32)
    ∧ (opOf cmd = none → ∀ (s : State) (din : List Byte) (rest : List HostInput),
        s.pending = .transaction ⟨cmd, din⟩ :: rest → step s = .next { s with pending := rest }.answeredIllegal)
    ∧ expectedLength cmd =
        (if opOf cmd = some .cksum ∨ opOf cmd = some .encode ∨ opOf cmd = some .push ∨ opOf cmd = some .rx
          then (cmd.toNat / 256) % 65536
          else if opOf cmd = some .decode then 256 else 0)

/-- 44_control R162: a word that matches no row is ILLEGAL and does nothing, and those are exactly the words the rule
lists. -/
def Obligations.ReservedWordsAnswerIllegal : Prop :=
  (∀ cmd : Word, (∀ r ∈ opcodeRows, r.matchesWord cmd = false) ↔ ReservedWord cmd)
  ∧ ∀ (s : State) (t : Transaction) (rest : List HostInput), s.pending = .transaction t :: rest →
      (∀ r ∈ opcodeRows, r.matchesWord t.cmd = false) → step s = .next { s with pending := rest }.answeredIllegal

/-- 44_control R163: a word that matches a row, with data-in bytes of another number than E(CMD). -/
def Obligations.WrongDataLengthAnswersIllegal : Prop :=
  ∀ (s : State) (t : Transaction) (rest : List HostInput) (op : Op), s.pending = .transaction t :: rest →
    opOf t.cmd = some op →
    t.din.length ≠ (if op = .cksum ∨ op = .encode ∨ op = .push ∨ op = .rx then (t.cmd.toNat / 256) % 65536
      else if op = .decode then 256 else 0) →
    step s = .next { s with pending := rest }.answeredIllegal

/-- 30_encoding R77: the command words and data-in bytes of the pseudo-instructions, IO_SLOT_ID being OPEN. -/
def Obligations.PseudoInstructionsExpand : Prop :=
  encode Pseudo.scan.expand = ⟨0x00000009#32, []⟩
  ∧ encode Pseudo.len.expand = ⟨0x00000005#32, []⟩
  ∧ (∀ din : List Byte, din.length = 8 →
      encode (Pseudo.encodeIo din).expand = ⟨0x882#32 ||| (Config.ioSlotId.setWidth 32 <<< 4), din⟩)
  ∧ encode Pseudo.enable.expand = ⟨0x0000030A#32, []⟩
  ∧ encode Pseudo.disable.expand = ⟨0x0000000A#32, []⟩

/-! ### Invariants and frames over all commands -/

/-- 42_fifo R129: the three invariants hold after reset, and every primitive, every command and every step keeps them; what
each primitive does to the cursors; and that no other command writes one. -/
def Obligations.FifoInvariantsAreKept : Prop :=
  (State.reset.block.CursorsOk
    ∧ State.reset.block.head = 0 ∧ State.reset.block.tail = 0 ∧ State.reset.block.len = 0)
  ∧ (∀ (b : Block) (d : List Byte), b.CursorsOk → (b.fifoPush d).CursorsOk
      ∧ ∃ acc, acc ≤ b.capacity - b.len ∧ (b.fifoPush d).len = b.len + acc
        ∧ (b.fifoPush d).tail = (b.tail + acc) % b.capacity ∧ (b.fifoPush d).head = b.head)
  ∧ (∀ (b : Block) (n : Nat), b.CursorsOk → n ≤ b.len → (b.fifoSeek n).CursorsOk
      ∧ (b.fifoSeek n).len + n = b.len ∧ (b.fifoSeek n).head = (b.head + n) % b.capacity
      ∧ (b.fifoSeek n).tail = b.tail)
  ∧ (∀ b : Block, b.CursorsOk → b.fifoFlush.CursorsOk
      ∧ b.fifoFlush.head = 0 ∧ b.fifoFlush.tail = 0 ∧ b.fifoFlush.len = 0)
  ∧ (∀ (i : Instr) (s t : State), s.block.CursorsOk → exec i s = .next t → t.block.CursorsOk)
  ∧ (∀ (i : Instr) (s t : State), (∀ d, i ≠ .push d) → (∀ d, i ≠ .rx d) → (∀ n, i ≠ .seek n) → i ≠ .flush →
      exec i s = .next t →
      t.block.head = s.block.head ∧ t.block.tail = s.block.tail ∧ t.block.len = s.block.len)
  ∧ ∀ s t : State, s.block.CursorsOk → step s = .next t → t.block.CursorsOk

/-- 00_scope R8, 10_state R32, 42_fifo R129, with the model's own form of MEM (entry 4): every step keeps the whole
invariant, and C. -/
def Obligations.StepKeepsInvariant : Prop :=
  ∀ s t : State, s.Inv → step s = .next t → t.Inv ∧ t.block.capacity = s.block.capacity

/-- 20_memory R48: NOP, CKSUM, ENCODE, DECODE, STATUS and PEEK write no state of the block, and issued twice in a row they
return the same twice (of NOP: 44_control R160); of DECODE this is said of lengths up to 251, where no verdict takes a free
draw (41_frame_codec R95, entry 3). -/
def Obligations.ReadOnlyCommandsAreIdempotent : Prop :=
  ∀ (i : Instr) (s : State), ReadsOnly i = true →
    ∃ t u r r', exec i s = .next t ∧ exec i t = .next u ∧ s.Returned t r ∧ t.Returned u r'
      ∧ t.block = s.block ∧ u.block = s.block
      ∧ ((∀ fr, i = .decode fr → (frameLength fr).toNat ≤ 251) → r' = r ∧ u.draws = s.draws)

/-- 10_state R23: only PUSH and RX write MEM. -/
def Obligations.OnlyPushAndRxWriteMemory : Prop :=
  ∀ (i : Instr) (s t : State), (∀ d, i ≠ .push d) → (∀ d, i ≠ .rx d) → exec i s = .next t →
    ∀ a, t.block.mem.read a = s.block.mem.read a

/-- 10_state R30, R32, 42_fifo R129: what each register of the block may be written by. -/
def Obligations.RegistersChangeOnlyByTheirCommands : Prop :=
  ∀ (i : Instr) (s t : State), exec i s = .next t →
    t.block.capacity = s.block.capacity
    ∧ ((∀ a b c, i ≠ .wrctrl a b c) → t.block.ctrl = s.block.ctrl)
    ∧ ((∀ d, i ≠ .push d) → (∀ d, i ≠ .rx d) → i ≠ .flush → t.block.tail = s.block.tail)
    ∧ ((∀ n, i ≠ .seek n) → (∀ d, i ≠ .rx d) → i ≠ .flush → t.block.head = s.block.head)
    ∧ ((∀ n, i ≠ .seek n) → (∀ d, i ≠ .push d) → (∀ d, i ≠ .rx d) → i ≠ .flush → t.block.len = s.block.len)

/-- 10_state R29: what sets OVF, what clears it, and that it changes no result but that of STATUS. -/
def Obligations.OverflowFlagIsSticky : Prop :=
  (∀ (i : Instr) (s t : State), exec i s = .next t →
    t.block.ovf =
      (match i with
        | .push d => s.block.ovf || decide (s.block.capacity - s.block.len < d.length)
        | .rx d => s.block.ovf || decide (s.block.capacity - s.block.len < d.length)
        | .flush => false
        | .wrctrl _ _ c => s.block.ovf && !c
        | .nop => s.block.ovf
        | .cksum _ => s.block.ovf
        | .encode _ _ _ => s.block.ovf
        | .decode _ => s.block.ovf
        | .status => s.block.ovf
        | .peek _ => s.block.ovf
        | .seek _ => s.block.ovf))
  ∧ (∀ s : State, s.performReset.block.ovf = false)
  ∧ (∀ s : State, ∃ t r, exec .status s = .next t ∧ s.Returned t r ∧ r.resp.v2.getLsbD 8 = s.block.ovf)
  ∧ ∀ (i : Instr) (s : State) (v : Bool), i ≠ .status →
      ∃ t u r, exec i s = .next t ∧ exec i (s.withBlock { s.block with ovf := v }) = .next u
        ∧ s.Returned t r ∧ (s.withBlock { s.block with ovf := v }).Returned u r
        ∧ u.block = { t.block with ovf := u.block.ovf } ∧ u.draws = t.draws

/-- 60_exceptions R172: an error other than CAPACITY_EXCEEDED leaves the block as it was; CAPACITY_EXCEEDED comes from PUSH
and RX alone, keeps the bytes that fit, sets OVF, and in RX runs the scan and keeps its events. -/
def Obligations.ErrorsLeaveStateUnchanged : Prop :=
  ∀ (s u : State) (t : Transaction) (rest : List HostInput) (r : Result),
    s.pending = .transaction t :: rest → step s = .next u → u.results = s.results ++ [r] →
    (r.resp.status ≠ .ok → r.resp.status ≠ .capacityExceeded → u.block = s.block ∧ r.dout = [] ∧ r.events = [])
    ∧ (r.resp.status = .capacityExceeded →
        u.block.ovf = true
        ∧ ((∃ d, decode t = .ok (.push d) ∧ u.block = s.block.fifoPush d)
          ∨ ∃ d, decode t = .ok (.rx d)
              ∧ u.block = (scan ({ s with pending := rest }.withBlock (s.block.fifoPush d))).state.block
              ∧ r.events = (scan ({ s with pending := rest }.withBlock (s.block.fifoPush d))).events))

/-- 10_state R28: two machines with the same Q, OVF and CTRL (and the same C, the same inputs and the same free draws to
come) return the same to every later sequence of inputs, and look the same after it. -/
def Obligations.SameQueueCannotBeToldApart : Prop :=
  ∀ (k : Nat) (s s' : State), s.Inv → s'.Inv → s.SameView s' →
    ∃ t t', Host.Core.run Sys2Proof.core k s = .next t ∧ Host.Core.run Sys2Proof.core k s' = .next t' ∧ t.SameView t'

/-! ### Control commands -/

/-- 44_control R160. -/
def Obligations.NopReturnsOkAlone : Prop :=
  ∀ s : State, exec .nop s = .next { s with results := s.results ++ [{ resp := { status := .ok } }] }

/-- 44_control R161: both enable bits take the written values; OVF is cleared if asked, else as it was; the FIFO is not
touched. -/
def Obligations.WrctrlWritesEnablesAndClearsOverflow : Prop :=
  ∀ (a b c : Bool) (s : State), ∃ t, exec (.wrctrl a b c) s = .next t
    ∧ s.Returned t { resp := { status := .ok } }
    ∧ t.block.ctrl.slotEn = a ∧ t.block.ctrl.ioEn = b
    ∧ (c = true → t.block.ovf = false) ∧ (c = false → t.block.ovf = s.block.ovf)
    ∧ t.block = { s.block with ctrl := t.block.ctrl, ovf := t.block.ovf } ∧ t.draws = s.draws

/-- 70_reset R191: the FIFO after reset is the FIFO after FifoFlush; reset is FLUSH followed by WRCTRL 0, 0, 0; FLUSH alone
empties the FIFO and keeps CTRL. The equations compare whole blocks; that reset leaves the bytes of MEM where they are is
the model's choice (entry 7). -/
def Obligations.ResetIsFlushThenClearEnables : Prop :=
  ∀ s : State, ∃ t u, exec .flush s = .next t ∧ exec (.wrctrl false false false) t = .next u
    ∧ u.block = s.performReset.block
    ∧ s.performReset.block = { s.block.fifoFlush with ctrl := ⟨false, false⟩ }
    ∧ t.block.content = [] ∧ t.block.ctrl = s.block.ctrl

/-! ### Checksum -/

/-- 40_checksum R80: the register starts at INIT; each byte is XORed into its high byte, and 8 rounds follow. -/
def Obligations.ChecksumFollowsTheRounds : Prop :=
  checksum [] = 0xEF4A#16
  ∧ ∀ (data : List Byte) (b : Byte),
      checksum (data ++ [b])
        = (fun r : Half => if r.getLsbD 15 then (r <<< 1) ^^^ 0x1021#16 else r <<< 1)^[8]
            (checksum data ^^^ (b.setWidth 16 <<< 8))

/-- 20_memory R43, 40_checksum R80: the byte-wise checksum is the bit-serial one that takes each byte's bits most
significant first. -/
def Obligations.ChecksumIsBitSerial : Prop := ∀ data : List Byte, checksum data = checksumBits data

/-- 40_checksum R80 (and 93_implementation_defined G3, which says it of one bit): a change of one byte always changes the
checksum. -/
def Obligations.OneChangedByteChangesChecksum : Prop :=
  ∀ (before after : List Byte) (b c : Byte), b ≠ c → checksum (before ++ b :: after) ≠ checksum (before ++ c :: after)

/-- 40_checksum R82. -/
def Obligations.CksumReturnsChecksum : Prop :=
  ∀ (din : List Byte) (s : State), ∃ t r, exec (.cksum din) s = .next t ∧ s.Returned t r
    ∧ r.resp.status = .ok ∧ r.resp.reason = .none
    ∧ r.resp.v0.extractLsb' 0 16 = checksum din ∧ r.resp.v0.extractLsb' 16 16 = 0#16
    ∧ r.resp.v1 = 0#32 ∧ r.resp.v2 = 0#32 ∧ r.dout = [] ∧ r.events = []
    ∧ t.block = s.block ∧ t.draws = s.draws

/-! ### Frame codec -/

/-- 41_frame_codec R90: every byte of an encoded frame, and when there is none. -/
def Obligations.EncodedFrameLayout : Prop :=
  ∀ (id ty : Byte) (pay : List Byte),
    (248 < pay.length → encodeFrame id ty pay = none)
    ∧ (pay.length ≤ 248 →
        ∃ fr, encodeFrame id ty pay = some fr ∧ fr.length = 256
          ∧ byteAt fr 0 = 0x55#8 ∧ byteAt fr 1 = id ∧ byteAt fr 2 = ty
          ∧ le16 (byteAt fr 3) (byteAt fr 4) = BitVec.ofNat 16 pay.length ∧ byteAt fr 4 = 0#8
          ∧ slice fr 5 (5 + pay.length) = pay
          ∧ (∀ k, 5 + pay.length ≤ k → k < 253 → byteAt fr k = 0#8)
          ∧ byteAt fr 253 = (checksum (slice fr 3 (5 + pay.length))).extractLsb' 0 8
          ∧ byteAt fr 254 = (checksum (slice fr 3 (5 + pay.length))).extractLsb' 8 8
          ∧ byteAt fr 255 = 0xAA#8)

/-- 41_frame_codec R91, the successful ENCODE: DOUT is the frame of R90, V0 the checksum of its window. -/
def Obligations.EncodeReturnsFrameAndChecksum : Prop :=
  ∀ (id ty : BitVec 2) (din : List Byte) (s : State), din.length ≤ 248 →
    ∃ t r, exec (.encode id ty din) s = .next t ∧ s.Returned t r
      ∧ encodeFrame (id.setWidth 8) (ty.setWidth 8) din = some r.dout
      ∧ r.resp = { status := .ok, v0 := (checksum (BitVec.ofNat 8 din.length :: 0#8 :: din)).setWidth 32 }
      ∧ r.events = [] ∧ t.block = s.block ∧ t.draws = s.draws

/-- 41_frame_codec R91, 60_exceptions R171: an ENCODE of more than 248 bytes returns PAYLOAD_TOO_LARGE and does nothing
else. -/
def Obligations.EncodeRejectsLongPayload : Prop :=
  ∀ (id ty : BitVec 2) (din : List Byte) (s : State), 248 < din.length →
    exec (.encode id ty din) s = .next { s with results := s.results ++ [{ resp := { status := .payloadTooLarge } }] }

/-- 41_frame_codec R94: which step's REASON is returned, for either value of the draw; no step failing, the message. -/
def Obligations.FirstFailingStepIsReported : Prop :=
  ∀ (draw : Bool) (fr : List Byte), fr.length = 256 →
    let length := (byteAt fr 3).toNat + 256 * (byteAt fr 4).toNat
    let markers := byteAt fr 0 = 0x55#8 ∧ byteAt fr 255 = 0xAA#8
    let ckOk := if 5 + length ≤ 256 then
        checksum (slice fr 3 (5 + length)) = le16 (byteAt fr 253) (byteAt fr 254) else draw = true
    let ty := byteAt fr 2
    (¬ markers → decodeFrame draw fr = .invalid .marker)
    ∧ (markers → ¬ ckOk → decodeFrame draw fr = .invalid .checksum)
    ∧ (markers → ckOk → (ty = 0#8 ∨ ty = 1#8) → 248 < length → decodeFrame draw fr = .invalid .length)
    ∧ (markers → ckOk → ty = 2#8 → length ≠ 8 → decodeFrame draw fr = .invalid .ioLength)
    ∧ (markers → ckOk → 3 ≤ ty.toNat → decodeFrame draw fr = .invalid .type)
    ∧ (markers → ckOk → ((ty = 0#8 ∨ ty = 1#8) ∧ length ≤ 248) ∨ (ty = 2#8 ∧ length = 8) →
        decodeFrame draw fr = .ok ⟨byteAt fr 1, ty, BitVec.ofNat 16 length, slice fr 5 (5 + length)⟩)

/-- 41_frame_codec R95: the draw decides the REASON of a frame whose window runs past its end, and nothing else of any
frame. -/
def Obligations.DrawDecidesReasonAlone : Prop :=
  ∀ fr : List Byte, fr.length = 256 →
    (252 ≤ (frameLength fr).toNat →
      (∀ draw, ∃ r, decodeFrame draw fr = .invalid r)
      ∧ (byteAt fr 0 = 0x55#8 → byteAt fr 255 = 0xAA#8 →
          decodeFrame false fr = .invalid .checksum
          ∧ decodeFrame true fr = .invalid
              (if byteAt fr 2 = 0#8 ∨ byteAt fr 2 = 1#8 then .length
                else if byteAt fr 2 = 2#8 then .ioLength else .type)))
    ∧ ((frameLength fr).toNat ≤ 251 →
        decodeFrame true fr = decodeFrame false fr
        ∧ (byteAt fr 0 = 0x55#8 → byteAt fr 255 = 0xAA#8 →
            ((∃ draw, decodeFrame draw fr = .invalid .checksum) ↔
              checksum (slice fr 3 (5 + (frameLength fr).toNat)) ≠ le16 (byteAt fr 253) (byteAt fr 254))))

/-- 41_frame_codec R96: the verdict, whatever the draw; a frame with L over 248 is never accepted. -/
def Obligations.DecodeAcceptsExactlyValidFrames : Prop :=
  ∀ (draw : Bool) (fr : List Byte), fr.length = 256 →
    ((∃ m, decodeFrame draw fr = .ok m) ↔ ValidFrame fr)
    ∧ (248 < (frameLength fr).toNat → ∃ r, decodeFrame draw fr = .invalid r)

/-- 41_frame_codec R97. -/
def Obligations.DecodedMessageFields : Prop :=
  ∀ (draw : Bool) (fr : List Byte) (m : SlotMessage), fr.length = 256 → decodeFrame draw fr = .ok m →
    m.slotId = byteAt fr 1 ∧ m.slotType = byteAt fr 2
    ∧ m.length.toNat = (byteAt fr 3).toNat + 256 * (byteAt fr 4).toNat
    ∧ (((m.slotType = 0#8 ∨ m.slotType = 1#8) ∧ m.length.toNat ≤ 248) ∨ (m.slotType = 2#8 ∧ m.length.toNat = 8))
    ∧ m.payload = slice fr 5 (5 + m.length.toNat) ∧ m.payload.length = m.length.toNat

/-- 41_frame_codec R98, the successful DECODE: the fields packed in V0, the declared payload in DOUT. -/
def Obligations.DecodeReturnsMessage : Prop :=
  ∀ (fr : List Byte) (s : State), ValidFrame fr →
    ∃ t r, exec (.decode fr) s = .next t ∧ s.Returned t r
      ∧ r.resp.status = .ok ∧ r.resp.reason = .none
      ∧ r.resp.v0.extractLsb' 0 8 = byteAt fr 1 ∧ r.resp.v0.extractLsb' 8 8 = byteAt fr 2
      ∧ r.resp.v0.extractLsb' 16 16 = frameLength fr ∧ r.resp.v1 = 0#32 ∧ r.resp.v2 = 0#32
      ∧ r.dout = slice fr 5 (5 + (frameLength fr).toNat) ∧ r.dout.length = (frameLength fr).toNat
      ∧ r.events = [] ∧ t.block = s.block ∧ t.draws = s.draws

/-- 41_frame_codec R98, 60_exceptions R171: a frame that fails validation returns INVALID with a REASON, and nothing of the
block changes; at most one free draw is used (entry 3). -/
def Obligations.DecodeReportsInvalidFrames : Prop :=
  ∀ (fr : List Byte) (s : State), fr.length = 256 → ¬ ValidFrame fr →
    ∃ t reason, exec (.decode fr) s = .next t
      ∧ s.Returned t { resp := { status := .invalid, reason := reason } } ∧ reason ≠ .none
      ∧ (∃ draw, decodeFrame draw fr = .invalid reason)
      ∧ t.block = s.block ∧ s.draws ≤ t.draws ∧ t.draws ≤ s.draws + 1

/-- 41_frame_codec R99: the padding and the slot id change no verdict. -/
def Obligations.PaddingAndSlotIdDoNotMatter : Prop :=
  ∀ (draw : Bool) (fr : List Byte), fr.length = 256 →
    (∀ fr' : List Byte, fr'.length = 256 →
      (∀ k, k < 256 → ¬ (5 + (frameLength fr).toNat ≤ k ∧ k < 253) → byteAt fr' k = byteAt fr k) →
      decodeFrame draw fr' = decodeFrame draw fr)
    ∧ ∀ x : Byte,
        (∀ r, decodeFrame draw fr = .invalid r → decodeFrame draw (fr.set 1 x) = .invalid r)
        ∧ ∀ m, decodeFrame draw fr = .ok m → decodeFrame draw (fr.set 1 x) = .ok { m with slotId := x }

/-- 41_frame_codec R100. -/
def Obligations.DecodeOfEncodedFrame : Prop :=
  ∀ (draw : Bool) (id ty : BitVec 2) (pay : List Byte), pay.length ≤ 248 →
    ∃ fr, encodeFrame (id.setWidth 8) (ty.setWidth 8) pay = some fr
      ∧ ((ty = 0#2 ∨ ty = 1#2) ∨ (ty = 2#2 ∧ pay.length = 8) →
          decodeFrame draw fr = .ok ⟨id.setWidth 8, ty.setWidth 8, BitVec.ofNat 16 pay.length, pay⟩)
      ∧ (ty = 2#2 → pay.length ≠ 8 → decodeFrame draw fr = .invalid .ioLength)
      ∧ (ty = 3#2 → decodeFrame draw fr = .invalid .type)

/-! ### FIFO commands -/

/-- 42_fifo R120 and R124: the bytes that fit are appended to Q, the rest are dropped and OVF is set; MEM changes only where
they go. -/
def Obligations.PushAppendsWhatFits : Prop :=
  ∀ (d : List Byte) (s : State), s.Inv → d.length ≤ 65535 →
    let acc := min d.length (s.block.capacity - s.block.len)
    ∃ t r, exec (.push d) s = .next t ∧ s.Returned t r
      ∧ r.resp.status = (if acc < d.length then .capacityExceeded else .ok) ∧ r.resp.reason = .none
      ∧ r.resp.v0.toNat = acc ∧ r.resp.v1.toNat = d.length - acc ∧ r.resp.v2 = 0#32
      ∧ r.dout = [] ∧ r.events = []
      ∧ t.block.content = s.block.content ++ d.take acc
      ∧ t.block.head = s.block.head ∧ t.block.tail = (s.block.tail + acc) % s.block.capacity
      ∧ t.block.len = s.block.len + acc
      ∧ t.block.ovf = (s.block.ovf || decide (acc < d.length))
      ∧ t.block.ctrl = s.block.ctrl ∧ t.block.capacity = s.block.capacity ∧ t.draws = s.draws
      ∧ ∀ a, (∀ k, k < acc → a ≠ (s.block.tail + k) % s.block.capacity) →
          t.block.mem.read a = s.block.mem.read a

/-- 42_fifo R125, 10_state R31: LEN, C, the flags in their bits, every reserved bit 0, and nothing changed. -/
def Obligations.StatusReportsState : Prop :=
  ∀ s : State, s.Inv → ∃ t r, exec .status s = .next t ∧ s.Returned t r
    ∧ r.resp.status = .ok ∧ r.resp.reason = .none
    ∧ r.resp.v0.toNat = s.block.len ∧ r.resp.v1.toNat = s.block.capacity
    ∧ (∀ k, r.resp.v2.getLsbD k =
        (if k = 0 then s.block.ctrl.slotEn else if k = 1 then s.block.ctrl.ioEn
          else if k = 8 then s.block.ovf else false))
    ∧ r.dout = [] ∧ r.events = [] ∧ t.block = s.block ∧ t.draws = s.draws

/-- 42_fifo R126, the successful PEEK: DOUT is `take cnt Q`, and nothing is changed. -/
def Obligations.PeekReturnsOldestBytes : Prop :=
  ∀ (cnt : Half) (s : State), cnt.toNat ≤ s.block.len →
    ∃ t r, exec (.peek cnt) s = .next t ∧ s.Returned t r
      ∧ r.resp = { status := .ok, v0 := cnt.setWidth 32 }
      ∧ r.dout = s.block.content.take cnt.toNat ∧ r.dout.length = cnt.toNat ∧ r.events = []
      ∧ t.block = s.block ∧ t.draws = s.draws

/-- 42_fifo R126 and R127, 60_exceptions R171: a PEEK or SEEK of more bytes than LEN returns UNDERFLOW with V0 = LEN, and
does nothing else. -/
def Obligations.PeekOrSeekPastLenUnderflows : Prop :=
  ∀ (cnt : Half) (s : State), s.Inv → s.block.len < cnt.toNat →
    ∃ r : Result, r.resp.status = .underflow ∧ r.resp.reason = .none ∧ r.resp.v0.toNat = s.block.len
      ∧ r.resp.v1 = 0#32 ∧ r.resp.v2 = 0#32 ∧ r.dout = [] ∧ r.events = []
      ∧ exec (.peek cnt) s = .next { s with results := s.results ++ [r] }
      ∧ exec (.seek cnt) s = .next { s with results := s.results ++ [r] }

/-- 42_fifo R122 and R127, the successful SEEK: the oldest bytes go, HEAD moves on mod C, and MEM, TAIL, OVF and CTRL are as
they were. -/
def Obligations.SeekDropsOldestBytes : Prop :=
  ∀ (cnt : Half) (s : State), s.Inv → cnt.toNat ≤ s.block.len →
    ∃ t r, exec (.seek cnt) s = .next t ∧ s.Returned t r
      ∧ r.resp.status = .ok ∧ r.resp.reason = .none ∧ r.resp.v0.toNat = s.block.len - cnt.toNat
      ∧ r.resp.v1 = 0#32 ∧ r.resp.v2 = 0#32 ∧ r.dout = [] ∧ r.events = []
      ∧ t.block.content = s.block.content.drop cnt.toNat
      ∧ t.block.head = (s.block.head + cnt.toNat) % s.block.capacity
      ∧ t.block.len = s.block.len - cnt.toNat
      ∧ t.block = { s.block with head := t.block.head, len := t.block.len } ∧ t.draws = s.draws

/-- 42_fifo R123 and R128. -/
def Obligations.FlushEmptiesFifo : Prop :=
  ∀ s : State, ∃ t, exec .flush s = .next t ∧ s.Returned t { resp := { status := .ok } }
    ∧ t.block.content = [] ∧ t.block.head = 0 ∧ t.block.tail = 0 ∧ t.block.len = 0 ∧ t.block.ovf = false
    ∧ t.block.ctrl = s.block.ctrl ∧ t.block.capacity = s.block.capacity ∧ t.draws = s.draws
    ∧ ∀ a, t.block.mem.read a = s.block.mem.read a

/-! ### Synchronizer -/

/-- 43_synchronizer R141 to R143: RX appends what fits and scans Q by the rules of `Scans`; V1 and V2 count the frames and the
resync steps, EVENTS are the scan's, and the rest is as in a push. -/
def Obligations.RxFollowsScanRules : Prop :=
  ∀ (d : List Byte) (s : State), s.Inv → d.length ≤ 65535 →
    let acc := min d.length (s.block.capacity - s.block.len)
    ∃ t r, exec (.rx d) s = .next t ∧ s.Returned t r
      ∧ Scans s.block.ctrl (s.block.content ++ d.take acc) r.events r.resp.v1.toNat r.resp.v2.toNat t.block.content
      ∧ r.resp.status = (if acc < d.length then .capacityExceeded else .ok) ∧ r.resp.reason = .none
      ∧ r.resp.v0.toNat = acc ∧ r.dout = []
      ∧ t.block.tail = (s.block.tail + acc) % s.block.capacity
      ∧ t.block.ovf = (s.block.ovf || decide (acc < d.length))
      ∧ t.block.ctrl = s.block.ctrl ∧ t.block.capacity = s.block.capacity
      ∧ ∀ a, (∀ k, k < acc → a ≠ (s.block.tail + k) % s.block.capacity) →
          t.block.mem.read a = s.block.mem.read a

/-- 43_synchronizer R144, with R145: RX ends, the bytes it takes from the FIFO are counted by V1 and V2, the iterations are
bounded, fewer than F bytes are left, and they are the last of the stream. -/
def Obligations.RxTerminatesAndCountsBytes : Prop :=
  ∀ (d : List Byte) (s : State), s.Inv →
    let acc := min d.length (s.block.capacity - s.block.len)
    let start := s.block.len + acc
    ∃ t r, exec (.rx d) s = .next t ∧ s.Returned t r
      ∧ t.block.len < 256 ∧ t.block.len ≤ start
      ∧ r.resp.v2.toNat + 256 * r.resp.v1.toNat = start - t.block.len
      ∧ (start < 256 → r.resp.v1 = 0#32 ∧ r.resp.v2 = 0#32)
      ∧ (256 ≤ start → r.resp.v1.toNat + r.resp.v2.toNat ≤ start - 256 + 1)
      ∧ t.block.content = (s.block.content ++ d.take acc).drop (start - t.block.len)

/-- 43_synchronizer R142 and R143, on one valid frame received into an empty FIFO: the frame is consumed, and the fan-out
emits what the slot id, the slot type and the enable bits say. -/
def Obligations.RxOfOneFrameDispatchesIt : Prop :=
  ∀ (fr : List Byte) (s : State), s.Inv → s.block.len = 0 → ValidFrame fr →
    ∃ t r, exec (.rx fr) s = .next t ∧ s.Returned t r
      ∧ r.resp = { status := .ok, v0 := 256#32, v1 := 1#32, v2 := 0#32 } ∧ r.dout = []
      ∧ t.block.len = 0 ∧ t.block.ctrl = s.block.ctrl ∧ t.block.ovf = s.block.ovf
      ∧ r.events =
          (if 3 < (byteAt fr 1).toNat then []
            else if byteAt fr 2 = 0#8 ∨ byteAt fr 2 = 1#8 then
              (if s.block.ctrl.slotEn = true then
                [.slot ((byteAt fr 1).extractLsb' 0 2) (byteAt fr 2) (frameLength fr)
                  (slice fr 5 (5 + (frameLength fr).toNat))] else [])
            else if s.block.ctrl.ioEn = true then [.io (frameLength fr) (slice fr 5 13)] else [])

/-- 43_synchronizer R146. That neither way drops a byte is that all the bytes fit, the model's reading of R147. -/
def Obligations.FragmentationChangesNothing : Prop :=
  ∀ (a b : List Byte) (between : List Instr) (s : State), s.Inv →
    s.block.len + (a ++ b).length ≤ s.block.capacity → (∀ i ∈ between, QuietFor s.block.ctrl i = true) →
    ∃ u v x w ra rb rw, exec (.rx a) s = .next u ∧ execAll between u = .next v ∧ exec (.rx b) v = .next x
      ∧ exec (.rx (a ++ b)) s = .next w
      ∧ s.Returned u ra ∧ v.Returned x rb ∧ s.Returned w rw
      ∧ ra.events ++ rb.events = rw.events
      ∧ ra.resp.v1.toNat + rb.resp.v1.toNat = rw.resp.v1.toNat
      ∧ ra.resp.v2.toNat + rb.resp.v2.toNat = rw.resp.v2.toNat
      ∧ x.block.content = w.block.content

/-- 43_synchronizer R147: when an RX drops nothing, and the chunk length that can never overflow while no PUSH is issued. -/
def Obligations.RxDropsNothingWithinRoom : Prop :=
  (∀ (d : List Byte) (s : State), s.Inv →
    ∃ t r, exec (.rx d) s = .next t ∧ s.Returned t r ∧ t.block.len ≤ 255
      ∧ (r.resp.status = .ok ↔ s.block.len + d.length ≤ s.block.capacity)
      ∧ (s.block.drops d = 0 ↔ s.block.len + d.length ≤ s.block.capacity))
  ∧ ∀ (i : Instr) (s t : State) (r : Result), s.Inv → s.block.len ≤ 255 → (∀ d, i ≠ .push d) →
      (∀ d, i = .rx d → d.length ≤ s.block.capacity - 256 + 1) → exec i s = .next t → s.Returned t r →
      r.resp.status ≠ .capacityExceeded ∧ t.block.len ≤ 255

/-- 43_synchronizer R150, for a FIFO that has room for both frames: the corrupted frame is slid past byte by byte, and the
valid one behind it is dispatched. -/
def Obligations.ResyncSkipsCorruptFrame : Prop :=
  ∀ (s : State) (y : List Byte) (k : Nat) (c : Byte), s.Inv → s.block.len = 0 → 512 ≤ s.block.capacity →
    ValidFrame y → (k = 253 ∨ k = 254) → c ≠ byteAt y k →
    (∀ o, 1 ≤ o → o ≤ 255 → ¬ ValidFrame (slice (y.set k c ++ y) o (o + 256))) →
    ∃ t r, exec (.rx (y.set k c ++ y)) s = .next t ∧ s.Returned t r
      ∧ r.resp = { status := .ok, v0 := 512#32, v1 := 1#32, v2 := 256#32 } ∧ t.block.len = 0
      ∧ ((byteAt y 1).toNat ≤ 3 → byteAt y 2 ≠ 2#8 → s.block.ctrl.slotEn = true →
          r.events = [.slot ((byteAt y 1).extractLsb' 0 2) (byteAt y 2) (frameLength y)
            (slice y 5 (5 + (frameLength y).toNat))])
      ∧ ((byteAt y 1).toNat ≤ 3 → byteAt y 2 = 2#8 → s.block.ctrl.ioEn = true →
          r.events = [.io (frameLength y) (slice y 5 13)])

/-- 30_encoding R69: every event of every result is a legal record, and only RX returns any. -/
def Obligations.EventsAreLegalRecords : Prop :=
  ∀ (i : Instr) (s t : State) (r : Result), exec i s = .next t → s.Returned t r →
    (∀ e ∈ r.events, e.Legal) ∧ (r.events ≠ [] → ∃ d, i = .rx d)

/-! ### Instances and their free draws -/

/-- 10_state R35, 60_exceptions R180, with 00_scope R12 and 41_frame_codec R95: all instances start in the reset state, and no
two of them draw their free Booleans from one stream, then or after any step. That free values come in numbered streams is
the model's choice (entries 3 and 11). -/
def Obligations.InstancesDrawFromTheirOwnStreams : Prop :=
  (∀ (capacities : List Nat) (k c : Nat), capacities[k]? = some c →
    ∃ s, (System.atReset capacities)[k]? = some s
      ∧ s.block = Block.atReset c ∧ s.pending = [] ∧ s.results = [])
  ∧ (∀ (capacities : List Nat) (j k : Nat) (a b : State), j ≠ k →
      (System.atReset capacities)[j]? = some a → (System.atReset capacities)[k]? = some b →
      a.drawStream ≠ b.drawStream)
  ∧ (∀ (i : Instr) (s t : State), exec i s = .next t → t.drawStream = s.drawStream)
  ∧ (∀ s t : State, step s = .next t → t.drawStream = s.drawStream)
  ∧ ∀ (k : Nat) (sys : System),
      (System.stepInstance k sys).map State.drawStream = sys.map State.drawStream
end

