-- ==== Sys2Proof/Laws/State.lean ====
section
/-! SUPPORT. One lemma per field per update of State and Block, so that no proof unfolds a record update. -/

namespace Sys2Proof.Machine

/-! ### How a transaction ends -/

@[simp] theorem State.complete_eq (s : State) (resp : Response) (dout : List Byte) (events : List Event) :
    s.complete resp dout events = .next (s.respond ⟨resp, dout, events⟩) := rfl
@[simp] theorem State.raise_eq (s : State) (status : Status) (reason : Reason) (v0 : Word) :
    s.raise status reason v0 = .next (s.respond { resp := { status := status, reason := reason, v0 := v0 } }) := rfl
@[simp] theorem State.raiseIllegal_eq (s : State) :
    s.raiseIllegal = .next (s.respond { resp := { status := .illegal } }) := rfl

@[simp] theorem State.respond_block (s : State) (r : Result) : (s.respond r).block = s.block := rfl
@[simp] theorem State.respond_drawStream (s : State) (r : Result) : (s.respond r).drawStream = s.drawStream := rfl
@[simp] theorem State.respond_draws (s : State) (r : Result) : (s.respond r).draws = s.draws := rfl
@[simp] theorem State.respond_pending (s : State) (r : Result) : (s.respond r).pending = s.pending := rfl
@[simp] theorem State.respond_results (s : State) (r : Result) : (s.respond r).results = s.results ++ [r] := rfl

/-! ### Updates of State -/

@[simp] theorem State.withBlock_block (s : State) (b : Block) : (s.withBlock b).block = b := rfl
@[simp] theorem State.withBlock_drawStream (s : State) (b : Block) : (s.withBlock b).drawStream = s.drawStream := rfl
@[simp] theorem State.withBlock_draws (s : State) (b : Block) : (s.withBlock b).draws = s.draws := rfl
@[simp] theorem State.withBlock_pending (s : State) (b : Block) : (s.withBlock b).pending = s.pending := rfl
@[simp] theorem State.withBlock_results (s : State) (b : Block) : (s.withBlock b).results = s.results := rfl

@[simp] theorem State.afterDraw_block (s : State) (d : Bool) : (s.afterDraw d).block = s.block := rfl
@[simp] theorem State.afterDraw_pending (s : State) (d : Bool) : (s.afterDraw d).pending = s.pending := rfl
@[simp] theorem State.afterDraw_results (s : State) (d : Bool) : (s.afterDraw d).results = s.results := rfl
@[simp] theorem State.afterDraw_drawStream (s : State) (d : Bool) : (s.afterDraw d).drawStream = s.drawStream := rfl
@[simp] theorem State.afterDraw_draws (s : State) (d : Bool) :
    (s.afterDraw d).draws = if d then s.draws + 1 else s.draws := rfl
@[simp] theorem State.afterDraw_false (s : State) : s.afterDraw false = s := rfl

@[simp] theorem State.afterDecode_block (s : State) (fr : List Byte) : (s.afterDecode fr).block = s.block := rfl
@[simp] theorem State.afterDecode_pending (s : State) (fr : List Byte) : (s.afterDecode fr).pending = s.pending := rfl
@[simp] theorem State.afterDecode_results (s : State) (fr : List Byte) : (s.afterDecode fr).results = s.results := rfl
@[simp] theorem State.afterDecode_drawStream (s : State) (fr : List Byte) :
    (s.afterDecode fr).drawStream = s.drawStream := rfl
@[simp] theorem State.afterDecode_draws (s : State) (fr : List Byte) :
    (s.afterDecode fr).draws = if drawsChecksum fr then s.draws + 1 else s.draws := rfl

@[simp] theorem State.seek_block (s : State) (n : Nat) : (s.seek n).block = s.block.fifoSeek n := rfl
@[simp] theorem State.seek_drawStream (s : State) (n : Nat) : (s.seek n).drawStream = s.drawStream := rfl
@[simp] theorem State.seek_draws (s : State) (n : Nat) : (s.seek n).draws = s.draws := rfl
@[simp] theorem State.seek_pending (s : State) (n : Nat) : (s.seek n).pending = s.pending := rfl
@[simp] theorem State.seek_results (s : State) (n : Nat) : (s.seek n).results = s.results := rfl

@[simp] theorem State.present_block (s : State) (i : HostInput) : (s.present i).block = s.block := rfl
@[simp] theorem State.present_drawStream (s : State) (i : HostInput) : (s.present i).drawStream = s.drawStream := rfl
@[simp] theorem State.present_draws (s : State) (i : HostInput) : (s.present i).draws = s.draws := rfl
@[simp] theorem State.present_pending (s : State) (i : HostInput) : (s.present i).pending = i :: s.pending := rfl
@[simp] theorem State.present_results (s : State) (i : HostInput) : (s.present i).results = s.results := rfl

@[simp] theorem State.performReset_block (s : State) : s.performReset.block = s.block.resetAction := rfl
@[simp] theorem State.performReset_drawStream (s : State) : s.performReset.drawStream = s.drawStream := rfl
@[simp] theorem State.performReset_draws (s : State) : s.performReset.draws = s.draws := rfl
@[simp] theorem State.performReset_pending (s : State) : s.performReset.pending = s.pending := rfl
@[simp] theorem State.performReset_results (s : State) : s.performReset.results = s.results := rfl

@[simp] theorem State.withFetchWord_eq (s : State) (nbits w : Nat) :
    s.withFetchWord nbits w = s.present (.transaction (tableTransaction nbits w)) := rfl

/-! ### Updates of Block -/

@[simp] theorem Block.fifoPush_capacity (b : Block) (d : List Byte) : (b.fifoPush d).capacity = b.capacity := rfl
@[simp] theorem Block.fifoPush_mem (b : Block) (d : List Byte) :
    (b.fifoPush d).mem = memWrite b.capacity b.mem b.tail (d.take (b.accepts d)) := rfl
@[simp] theorem Block.fifoPush_head (b : Block) (d : List Byte) : (b.fifoPush d).head = b.head := rfl
@[simp] theorem Block.fifoPush_tail (b : Block) (d : List Byte) :
    (b.fifoPush d).tail = (b.tail + b.accepts d) % b.capacity := rfl
@[simp] theorem Block.fifoPush_len (b : Block) (d : List Byte) : (b.fifoPush d).len = b.len + b.accepts d := rfl
@[simp] theorem Block.fifoPush_ovf (b : Block) (d : List Byte) :
    (b.fifoPush d).ovf = ovfAfterPush (b.drops d) b.ovf := rfl
@[simp] theorem Block.fifoPush_ctrl (b : Block) (d : List Byte) : (b.fifoPush d).ctrl = b.ctrl := rfl

@[simp] theorem Block.fifoSeek_capacity (b : Block) (n : Nat) : (b.fifoSeek n).capacity = b.capacity := rfl
@[simp] theorem Block.fifoSeek_mem (b : Block) (n : Nat) : (b.fifoSeek n).mem = b.mem := rfl
@[simp] theorem Block.fifoSeek_head (b : Block) (n : Nat) : (b.fifoSeek n).head = (b.head + n) % b.capacity := rfl
@[simp] theorem Block.fifoSeek_tail (b : Block) (n : Nat) : (b.fifoSeek n).tail = b.tail := rfl
@[simp] theorem Block.fifoSeek_len (b : Block) (n : Nat) : (b.fifoSeek n).len = b.len - n := rfl
@[simp] theorem Block.fifoSeek_ovf (b : Block) (n : Nat) : (b.fifoSeek n).ovf = b.ovf := rfl
@[simp] theorem Block.fifoSeek_ctrl (b : Block) (n : Nat) : (b.fifoSeek n).ctrl = b.ctrl := rfl

@[simp] theorem Block.fifoFlush_capacity (b : Block) : b.fifoFlush.capacity = b.capacity := rfl
@[simp] theorem Block.fifoFlush_mem (b : Block) : b.fifoFlush.mem = b.mem := rfl
@[simp] theorem Block.fifoFlush_head (b : Block) : b.fifoFlush.head = 0 := rfl
@[simp] theorem Block.fifoFlush_tail (b : Block) : b.fifoFlush.tail = 0 := rfl
@[simp] theorem Block.fifoFlush_len (b : Block) : b.fifoFlush.len = 0 := rfl
@[simp] theorem Block.fifoFlush_ovf (b : Block) : b.fifoFlush.ovf = false := rfl
@[simp] theorem Block.fifoFlush_ctrl (b : Block) : b.fifoFlush.ctrl = b.ctrl := rfl

@[simp] theorem Block.resetAction_capacity (b : Block) : b.resetAction.capacity = b.capacity := rfl
@[simp] theorem Block.resetAction_mem (b : Block) : b.resetAction.mem = b.mem := rfl
@[simp] theorem Block.resetAction_head (b : Block) : b.resetAction.head = 0 := rfl
@[simp] theorem Block.resetAction_tail (b : Block) : b.resetAction.tail = 0 := rfl
@[simp] theorem Block.resetAction_len (b : Block) : b.resetAction.len = 0 := rfl
@[simp] theorem Block.resetAction_ovf (b : Block) : b.resetAction.ovf = false := rfl
@[simp] theorem Block.resetAction_ctrl (b : Block) : b.resetAction.ctrl = ⟨false, false⟩ := rfl

/-! ### Reset -/

@[simp] theorem State.reset_block : State.reset.block = Block.atReset Config.capacity := rfl
@[simp] theorem State.reset_drawStream : State.reset.drawStream = 0 := rfl
@[simp] theorem State.reset_draws : State.reset.draws = 0 := rfl
@[simp] theorem State.reset_pending : State.reset.pending = [] := rfl
@[simp] theorem State.reset_results : State.reset.results = [] := rfl

@[simp] theorem Block.atReset_capacity (c : Nat) : (Block.atReset c).capacity = c := rfl
@[simp] theorem Block.atReset_mem (c : Nat) : (Block.atReset c).mem = [] := rfl
@[simp] theorem Block.atReset_head (c : Nat) : (Block.atReset c).head = 0 := rfl
@[simp] theorem Block.atReset_tail (c : Nat) : (Block.atReset c).tail = 0 := rfl
@[simp] theorem Block.atReset_len (c : Nat) : (Block.atReset c).len = 0 := rfl
@[simp] theorem Block.atReset_ovf (c : Nat) : (Block.atReset c).ovf = false := rfl
@[simp] theorem Block.atReset_ctrl (c : Nat) : (Block.atReset c).ctrl = ⟨false, false⟩ := rfl

/-- The OPEN capacity lies in the range of 00_scope R8. -/
theorem configCapacity_bounds : 256 ≤ Config.capacity ∧ Config.capacity ≤ 2 ^ 32 - 1 := by
  have h := Nat.mod_lt Config.capacityChoice (y := Config.capacityMax + 1 - Config.capacityMin) (by norm_num)
  unfold Config.capacity
  generalize Config.capacityChoice % (Config.capacityMax + 1 - Config.capacityMin) = z at *
  norm_num at h ⊢
  omega

/-! ### Flags -/

theorem ovfAfterPush_eq (drop : Nat) (ovf : Bool) : ovfAfterPush drop ovf = (ovf || decide (0 < drop)) := by
  unfold ovfAfterPush
  split <;> simp_all

theorem ovfAfterWrctrl_eq (clr ovf : Bool) : ovfAfterWrctrl clr ovf = (ovf && !clr) := by cases clr <;> simp [ovfAfterWrctrl]

theorem Block.drops_eq (b : Block) (d : List Byte) : b.drops d = d.length - (b.capacity - b.len) := by
  unfold Block.drops Block.accepts
  omega

end Sys2Proof.Machine
end

