-- ==== Sys2Proof/Laws/Words.lean ====
section
/-! SUPPORT. The bits of command words and result words, and the two bytes of a 16-bit value. -/

namespace Sys2Proof

/-- Every bit of a command word, from its fields (30_encoding R61). -/
theorem commandWord_getLsbD (op : BitVec 4) (id ty : BitVec 2) (cnt : Half) (i : Nat) :
    (commandWord op id ty cnt).getLsbD i =
      if i < 4 then op.getLsbD i else if i < 6 then id.getLsbD (i - 4) else if i < 8 then ty.getLsbD (i - 6)
      else if i < 24 then cnt.getLsbD (i - 8) else false := by
  have hop : 4 ≤ i → op.getLsbD i = false := BitVec.getLsbD_of_ge _ _
  have hid : 2 ≤ i - 4 → id.getLsbD (i - 4) = false := BitVec.getLsbD_of_ge _ _
  have hty : 2 ≤ i - 6 → ty.getLsbD (i - 6) = false := BitVec.getLsbD_of_ge _ _
  have hcnt : 16 ≤ i - 8 → cnt.getLsbD (i - 8) = false := BitVec.getLsbD_of_ge _ _
  unfold commandWord
  simp only [BitVec.getLsbD_or, BitVec.getLsbD_shiftLeft, BitVec.getLsbD_setWidth]
  split_ifs with h1 h2 h3 h4
  · simp [h1, show i < 6 by omega, show i < 8 by omega, show i < 32 by omega]
  · simp [h1, h2, hop (by omega), show i < 8 by omega, show i < 32 by omega, show i - 4 < 32 by omega]
  · simp [h2, h3, hop (by omega), hid (by omega), show i < 32 by omega, show ¬ i < 4 by omega, show i - 6 < 32 by omega]
  · simp [h3, hop (by omega), hid (by omega), hty (by omega), show i < 32 by omega, show i - 8 < 32 by omega]
  · simp [hop (by omega), hid (by omega), hty (by omega), hcnt (by omega)]

/-- A masked word has the value of a row when each of its 32 bits has. -/
theorem and_eq_iff_bits (x m v : Word) : x &&& m = v ↔ ∀ i, i < 32 → (x.getLsbD i && m.getLsbD i) = v.getLsbD i := by
  constructor
  · rintro rfl i _
    simp
  · intro h
    apply BitVec.eq_of_getLsbD_eq
    intro i hi
    simpa using h i hi

namespace Machine

theorem le16_getLsbD (lo hi : Byte) (i : Nat) :
    (le16 lo hi).getLsbD i = if i < 8 then lo.getLsbD i else hi.getLsbD (i - 8) := by
  have hlo : 8 ≤ i → lo.getLsbD i = false := BitVec.getLsbD_of_ge _ _
  have hhi : 8 ≤ i - 8 → hi.getLsbD (i - 8) = false := BitVec.getLsbD_of_ge _ _
  unfold le16
  simp only [BitVec.getLsbD_or, BitVec.getLsbD_shiftLeft, BitVec.getLsbD_setWidth]
  split_ifs with h1
  · simp [h1, show i < 16 by omega]
  · by_cases h2 : i < 16
    · simp [h1, h2, hlo (by omega), show i - 8 < 16 by omega]
    · simp [h2, hhi (by omega)]

/-- `le16` as a number (00_scope R11). -/
theorem le16_toNat (lo hi : Byte) : (le16 lo hi).toNat = lo.toNat + 256 * hi.toNat := by
  have h : le16 lo hi = hi ++ lo := by
    apply BitVec.eq_of_getLsbD_eq
    intro i _
    rw [le16_getLsbD, BitVec.getLsbD_append]
  rw [h, BitVec.toNat_append, ← Nat.shiftLeft_add_eq_or_of_lt lo.isLt, Nat.shiftLeft_eq]
  omega

/-- The two bytes of a 16-bit value, put together again. -/
@[simp] theorem le16_lowByte_highByte (v : Half) : le16 (lowByte v) (highByte v) = v := by
  apply BitVec.eq_of_getLsbD_eq
  intro i hi
  rw [le16_getLsbD]
  split
  · next h => simp [lowByte, h]
  · next h => simp [highByte, show i - 8 < 8 by omega, show 8 + (i - 8) = i by omega]

/-- The bits of the STATUS view (10_state R31). -/
theorem statusFlags_getLsbD (c : Ctrl) (ovf : Bool) (i : Nat) :
    (statusFlags c ovf).getLsbD i =
      if i = 0 then c.slotEn else if i = 1 then c.ioEn else if i = 8 then ovf else false := by
  unfold statusFlags
  simp only [BitVec.getLsbD_or, BitVec.getLsbD_shiftLeft, BitVec.getLsbD_setWidth, BitVec.getLsbD_ofBool]
  split_ifs with h1 h2 h3
  · simp [h1]
  · simp [h2]
  · simp [h3]
  · by_cases h : i < 32
    · have e1 : decide (i = 0) = false := by simp [h1]
      have e2 : i < 1 ∨ decide (i - 1 = 0) = false := by rw [decide_eq_false_iff_not]; omega
      have e3 : i < 8 ∨ decide (i - 8 = 0) = false := by rw [decide_eq_false_iff_not]; omega
      rcases e2 with e2 | e2 <;> rcases e3 with e3 | e3 <;> simp [e1, e2, e3]
    · simp [h]

end Machine
end Sys2Proof
end

