-- ==== Sys2Proof/Laws/Checksum.lean ====
section
/-! SUPPORT. The checksum as a fold (40_checksum R80). -/

namespace Sys2Proof.Machine

@[simp] theorem checksum_nil : checksum [] = crcInit := rfl

/-- One round. -/
def crcRound (r : Half) : Half := if r.getLsbD 15 then (r <<< 1) ^^^ crcPoly else r <<< 1

theorem crcRounds_succ (n : Nat) (r : Half) : crcRounds (n + 1) r = crcRounds n (crcRound r) := by
  simp only [crcRounds, crcRound]; split <;> rfl

theorem crcRounds_eq_iterate (n : Nat) (r : Half) : crcRounds n r = crcRound^[n] r := by
  induction n generalizing r with
  | zero => rfl
  | succ n ih => rw [crcRounds_succ, ih, Function.iterate_succ_apply]

/-- The register after `data` is the register the following bytes start from. -/
theorem checksum_append (data more : List Byte) : checksum (data ++ more) = more.foldl crcByte (checksum data) := by
  simp [checksum]

/-- One round is XOR-linear. -/
theorem crcRound_xor (a b : Half) : crcRound (a ^^^ b) = crcRound a ^^^ crcRound b := by
  unfold crcRound
  rw [BitVec.getLsbD_xor, BitVec.shiftLeft_xor_distrib]
  cases a.getLsbD 15 <;> cases b.getLsbD 15 <;>
    (apply BitVec.eq_of_getLsbD_eq
     intro i _
     simp only [Bool.xor_false, Bool.xor_true, Bool.not_false, Bool.not_true, if_true, if_false, Bool.false_eq_true,
       BitVec.getLsbD_xor] <;>
     cases (a <<< 1).getLsbD i <;> cases (b <<< 1).getLsbD i <;> cases crcPoly.getLsbD i <;> rfl)

end Sys2Proof.Machine
end

