-- ==== Sys2Proof/Laws/Codec.lean ====
section
/-! SUPPORT. What the codec's functions can answer (41_frame_codec R90, R94). -/

namespace Sys2Proof.Machine

/-! ### Byte lists -/

theorem byteAt_eq_getElem {xs : List Byte} {i : Nat} (h : i < xs.length) : byteAt xs i = xs[i] := by
  simp [byteAt, List.getD_eq_getElem?_getD, h]

theorem byteAt_append_left {xs ys : List Byte} {i : Nat} (h : i < xs.length) : byteAt (xs ++ ys) i = byteAt xs i := by
  simp [byteAt, List.getD_eq_getElem?_getD, List.getElem?_append_left h]

theorem byteAt_append_right {xs ys : List Byte} {i : Nat} (h : xs.length ≤ i) :
    byteAt (xs ++ ys) i = byteAt ys (i - xs.length) := by
  simp [byteAt, List.getD_eq_getElem?_getD, List.getElem?_append_right h]

theorem slice_length (xs : List Byte) (a b : Nat) : (slice xs a b).length = min (b - a) (xs.length - a) := by
  simp [slice]

/-- Two lists of one length that agree on the indices of a slice have the same slice. -/
theorem slice_congr {xs ys : List Byte} {a b : Nat} (hl : xs.length = ys.length)
    (h : ∀ k, a ≤ k → k < b → k < xs.length → byteAt xs k = byteAt ys k) : slice xs a b = slice ys a b := by
  apply List.ext_getElem
  · simp [slice_length, hl]
  · intro i h1 h2
    rw [slice_length] at h1
    have := h (a + i) (by omega) (by omega) (by omega)
    rw [byteAt_eq_getElem (by omega), byteAt_eq_getElem (by omega)] at this
    simpa [slice] using this

/-! ### Encode -/

/-- What Encode answers: none for a payload over PMAX, else the fields of the frame in order (41_frame_codec R90). -/
theorem encodeFrame_cases (id ty : Byte) (pay : List Byte) :
    (248 < pay.length ∧ encodeFrame id ty pay = none)
    ∨ (pay.length ≤ 248 ∧ ∃ window : List Byte, ∃ ck : Half,
        window = lowByte (BitVec.ofNat 16 pay.length) :: highByte (BitVec.ofNat 16 pay.length) :: pay
        ∧ ck = checksum window
        ∧ encodeFrame id ty pay = some ([0x55#8, id, ty] ++ window ++ zeros (248 - pay.length)
            ++ [lowByte ck, highByte ck, 0xAA#8])) := by
  by_cases h : pay.length ≤ 248
  · exact .inr ⟨h, _, _, rfl, rfl, by simp [encodeFrame, show ¬ 248 < pay.length by omega]⟩
  · exact .inl ⟨by omega, by simp [encodeFrame, show 248 < pay.length by omega]⟩

/-- A frame has 256 bytes. -/
theorem encodeFrame_length {id ty : Byte} {pay fr : List Byte} (h : encodeFrame id ty pay = some fr) :
    fr.length = 256 := by
  rcases encodeFrame_cases id ty pay with ⟨_, hn⟩ | ⟨hl, w, ck, hw, _, hs⟩
  · simp [hn] at h
  · rw [hs] at h
    obtain rfl := Option.some.inj h
    simp [hw, zeros]
    omega

/-! ### Decode -/

/-- What steps 3 to 5 of Decode answer (41_frame_codec R94). -/
theorem laterSteps_cases (fr : List Byte) :
    ((byteAt fr 2 = 0#8 ∨ byteAt fr 2 = 1#8) ∧ 248 < (frameLength fr).toNat ∧ laterSteps fr = .invalid .length)
    ∨ (byteAt fr 2 = 2#8 ∧ (frameLength fr).toNat ≠ 8 ∧ laterSteps fr = .invalid .ioLength)
    ∨ ((byteAt fr 2 ≠ 0#8 ∧ byteAt fr 2 ≠ 1#8 ∧ byteAt fr 2 ≠ 2#8) ∧ laterSteps fr = .invalid .type)
    ∨ ((((byteAt fr 2 = 0#8 ∨ byteAt fr 2 = 1#8) ∧ (frameLength fr).toNat ≤ 248)
          ∨ (byteAt fr 2 = 2#8 ∧ (frameLength fr).toNat = 8))
        ∧ laterSteps fr = .ok ⟨byteAt fr 1, byteAt fr 2, frameLength fr, framePayload fr⟩) := by
  unfold laterSteps
  simp only [offType, offId, typeSignal, typeMetric, typeIo, payloadMax, ioLength]
  by_cases h0 : byteAt fr 2 = 0#8 ∨ byteAt fr 2 = 1#8
  · have h2 : byteAt fr 2 ≠ 2#8 := by rcases h0 with h | h <;> simp [h]
    by_cases hl : (frameLength fr).toNat ≤ 248
    · exact .inr (.inr (.inr ⟨.inl ⟨h0, hl⟩, by rcases h0 with h | h <;> simp [h, show ¬ 248 < (frameLength fr).toNat by omega]⟩))
    · exact .inl ⟨h0, by omega, by rcases h0 with h | h <;> simp [h, show 248 < (frameLength fr).toNat by omega]⟩
  · by_cases h2 : byteAt fr 2 = 2#8
    · by_cases hl : (frameLength fr).toNat = 8
      · exact .inr (.inr (.inr ⟨.inr ⟨h2, hl⟩, by simp [h2, hl]⟩))
      · exact .inr (.inl ⟨h2, hl, by simp [h2, hl]⟩)
    · have := not_or.mp h0
      exact .inr (.inr (.inl ⟨⟨this.1, this.2, h2⟩, by simp [this.1, this.2, h2]⟩))

/-- What Decode answers, step by step (41_frame_codec R94, R95). -/
theorem decodeFrame_cases (draw : Bool) (fr : List Byte) :
    (¬ (byteAt fr 0 = 0x55#8 ∧ byteAt fr 255 = 0xAA#8) ∧ decodeFrame draw fr = .invalid .marker)
    ∨ ((byteAt fr 0 = 0x55#8 ∧ byteAt fr 255 = 0xAA#8)
        ∧ (((frameLength fr).toNat ≤ 251 ∧ checksum (frameWindow fr) ≠ frameChecksum fr
              ∧ decodeFrame draw fr = .invalid .checksum)
          ∨ ((frameLength fr).toNat ≤ 251 ∧ checksum (frameWindow fr) = frameChecksum fr
              ∧ decodeFrame draw fr = laterSteps fr)
          ∨ (252 ≤ (frameLength fr).toNat ∧ ∃ r, laterSteps fr = .invalid r
              ∧ decodeFrame draw fr = .invalid (if draw then r else .checksum)))) := by
  have hin : windowInside fr = decide ((frameLength fr).toNat ≤ 251) := by
    simp only [windowInside, offPay, frameSize, decide_eq_decide]
    omega
  have hmk : markersOk fr = decide (byteAt fr 0 = 0x55#8 ∧ byteAt fr 255 = 0xAA#8) := by
    simp [markersOk, Bool.beq_eq_decide_eq, offStart, offStop]
  unfold decodeFrame
  rw [hmk, hin]
  by_cases hm : byteAt fr 0 = 0x55#8 ∧ byteAt fr 255 = 0xAA#8
  · refine .inr ⟨hm, ?_⟩
    by_cases hl : (frameLength fr).toNat ≤ 251
    · by_cases hc : checksum (frameWindow fr) = frameChecksum fr
      · exact .inr (.inl ⟨hl, hc, by simp [hm, hl, checksumMatches, hc]⟩)
      · exact .inl ⟨hl, hc, by simp [hm, hl, checksumMatches, hc]⟩
    · refine .inr (.inr ⟨by omega, ?_⟩)
      have : ∃ r, laterSteps fr = .invalid r := by
        rcases laterSteps_cases fr with ⟨_, _, h⟩ | ⟨_, _, h⟩ | ⟨_, h⟩ | ⟨h, _⟩
        · exact ⟨_, h⟩
        · exact ⟨_, h⟩
        · exact ⟨_, h⟩
        · omega
      obtain ⟨r, hr⟩ := this
      exact ⟨r, hr, by simp [hm, hl, hr, drawnStep]⟩
  · exact .inl ⟨hm, by simp [hm]⟩

/-- Decode reaches the draw for exactly the frames with right markers and a length over 251. -/
theorem drawsChecksum_iff (fr : List Byte) :
    drawsChecksum fr = true ↔ (byteAt fr 0 = 0x55#8 ∧ byteAt fr 255 = 0xAA#8) ∧ 252 ≤ (frameLength fr).toNat := by
  simp only [drawsChecksum, markersOk, windowInside, offStart, offStop, offPay, frameSize, Bool.and_eq_true, beq_iff_eq,
    Bool.not_eq_true', decide_eq_false_iff_not]
  exact and_congr_right fun _ => by omega

end Sys2Proof.Machine
end

