-- ==== Sys2Proof/Laws/Memory.lean ====
section
/-! SUPPORT. The byte store: reading back a write, leaving every other byte alone, the canonical form and the addresses
kept by every write, and what MemRead and MemWrite do (20_memory R41). -/

namespace Sys2Proof.Machine

/-! ### One byte -/

@[simp] theorem Memory.read_nil (a : Nat) : Memory.read [] a = fillByte := rfl

theorem Memory.read_cons (x : Nat) (v : Byte) (m : Memory) (a : Nat) :
    Memory.read ((x, v) :: m) a = if x = a then v else Memory.read m a := rfl

theorem Memory.read_write_of_ne {m : Memory} {a c : Nat} (b : Byte) (h : c ≠ a) : (m.write a b).read c = m.read c := by
  induction m with
  | nil => unfold Memory.write; split <;> simp [Memory.read_cons, h.symm]
  | cons e rest ih =>
    obtain ⟨x, v⟩ := e
    unfold Memory.write
    split
    · split <;> simp [Memory.read_cons, h.symm]
    · split
      · next hx => subst hx; split <;> simp [Memory.read_cons, h.symm]
      · simp [Memory.read_cons, ih]

theorem Memory.wfFrom_mono {low low' : Nat} {m : Memory} (h : low' ≤ low) (hm : Memory.wfFrom low m = true) :
    Memory.wfFrom low' m = true := by
  cases m with
  | nil => rfl
  | cons e rest =>
    simp only [Memory.wfFrom, Bool.and_eq_true, decide_eq_true_eq] at hm ⊢
    exact ⟨⟨by omega, hm.1.2⟩, hm.2⟩

/-- An address below every listed one is not listed. -/
theorem Memory.read_of_wfFrom {low a : Nat} {m : Memory} (hm : Memory.wfFrom low m = true) (h : a < low) :
    m.read a = fillByte := by
  induction m generalizing low with
  | nil => rfl
  | cons e rest ih =>
    obtain ⟨x, v⟩ := e
    simp only [Memory.wfFrom, Bool.and_eq_true, decide_eq_true_eq] at hm
    rw [Memory.read_cons, if_neg (by omega), ih hm.2 (by omega)]

theorem Memory.read_write_self_from {low : Nat} {m : Memory} (a : Nat) (b : Byte) (hm : Memory.wfFrom low m = true) :
    (m.write a b).read a = b := by
  induction m generalizing low with
  | nil => unfold Memory.write; split <;> simp_all [Memory.read_cons]
  | cons e rest ih =>
    obtain ⟨x, v⟩ := e
    simp only [Memory.wfFrom, Bool.and_eq_true, decide_eq_true_eq] at hm
    unfold Memory.write
    split
    · split
      · next hb => rw [Memory.read_cons, if_neg (by omega), Memory.read_of_wfFrom hm.2 (by omega), hb]
      · simp [Memory.read_cons]
    · split
      · next hx =>
        subst hx
        split
        · next hb => rw [Memory.read_of_wfFrom hm.2 (by omega), hb]
        · simp [Memory.read_cons]
      · next h1 h2 => rw [Memory.read_cons, if_neg (by omega), ih hm.2]

/-- A byte written is read back. -/
theorem Memory.read_write_self {m : Memory} (a : Nat) (b : Byte) (hm : m.wf = true) : (m.write a b).read a = b :=
  Memory.read_write_self_from a b hm

theorem Memory.wfFrom_write {low : Nat} {m : Memory} {a : Nat} (b : Byte) (ha : low ≤ a)
    (hm : Memory.wfFrom low m = true) : Memory.wfFrom low (m.write a b) = true := by
  induction m generalizing low with
  | nil => unfold Memory.write; split <;> simp_all [Memory.wfFrom]
  | cons e rest ih =>
    obtain ⟨x, v⟩ := e
    have hm' := hm
    simp only [Memory.wfFrom, Bool.and_eq_true, decide_eq_true_eq] at hm
    unfold Memory.write
    split
    · split
      · exact hm'
      · next h1 h2 =>
        simp only [Memory.wfFrom, Bool.and_eq_true, decide_eq_true_eq]
        exact ⟨⟨ha, h2⟩, ⟨by omega, hm.1.2⟩, hm.2⟩
    · split
      · next hx =>
        subst hx
        split
        · exact Memory.wfFrom_mono (by omega) hm.2
        · next hb =>
          simp only [Memory.wfFrom, Bool.and_eq_true, decide_eq_true_eq]
          exact ⟨⟨ha, hb⟩, hm.2⟩
      · simp only [Memory.wfFrom, Bool.and_eq_true, decide_eq_true_eq]
        exact ⟨hm.1, ih (by omega) hm.2⟩

/-- A write keeps the canonical form. -/
theorem Memory.wf_write {m : Memory} (a : Nat) (b : Byte) (hm : m.wf = true) : (m.write a b).wf = true :=
  Memory.wfFrom_write b (Nat.zero_le a) hm

theorem Memory.mem_write {m : Memory} {a : Nat} {b : Byte} {c : Host.Cell} (h : c ∈ m.write a b) :
    c ∈ m ∨ c = (a, b) := by
  induction m with
  | nil => unfold Memory.write at h; split at h <;> simp_all
  | cons e rest ih =>
    obtain ⟨x, v⟩ := e
    unfold Memory.write at h
    split at h
    · split at h
      · exact .inl h
      · exact (List.mem_cons.mp h).symm
    · split at h
      · split at h
        · exact .inl (List.mem_cons_of_mem _ h)
        · exact (List.mem_cons.mp h).symm.imp_left (List.mem_cons_of_mem _)
      · rcases List.mem_cons.mp h with h | h
        · exact .inl (by simp [h])
        · rcases ih h with h | h
          · exact .inl (by simp [h])
          · exact .inr h

/-! ### MemWrite -/

theorem memWrite_cons (cap : Nat) (m : Memory) (addr : Nat) (b : Byte) (bs : List Byte) :
    memWrite cap m addr (b :: bs) = memWrite cap (m.write (addr % cap) b) (addr + 1) bs := rfl

/-- MemWrite changes no byte outside the indices it names. -/
theorem memWrite_read_of_ne {cap : Nat} {m : Memory} {addr a : Nat} {v : List Byte}
    (h : ∀ k, k < v.length → a ≠ (addr + k) % cap) : (memWrite cap m addr v).read a = m.read a := by
  induction v generalizing m addr with
  | nil => rfl
  | cons b bs ih =>
    rw [memWrite_cons, ih, Memory.read_write_of_ne]
    · simpa using h 0 (by simp)
    · intro k hk
      have := h (k + 1) (by simpa using hk)
      rwa [show addr + 1 + k = addr + (k + 1) by omega]

/-- MemWrite keeps the canonical form. -/
theorem memWrite_wf {cap : Nat} {m : Memory} (addr : Nat) (v : List Byte) (hm : m.wf = true) :
    (memWrite cap m addr v).wf = true := by
  induction v generalizing m addr with
  | nil => exact hm
  | cons b bs ih => exact ih _ (Memory.wf_write _ _ hm)

/-- MemWrite lists no address outside MEM[0..C). -/
theorem memWrite_bound {cap : Nat} {m : Memory} (addr : Nat) (v : List Byte) (hc : 0 < cap)
    (hm : ∀ c ∈ m, c.1 < cap) : ∀ c ∈ memWrite cap m addr v, c.1 < cap := by
  induction v generalizing m addr with
  | nil => exact hm
  | cons b bs ih =>
    refine ih _ fun c h => ?_
    rcases Memory.mem_write h with h | h
    · exact hm c h
    · rw [h]; exact Nat.mod_lt _ hc

/-- Two different offsets below C name two different indices. -/
theorem offset_ne {cap addr i j : Nat} (hi : i < cap) (hj : j < cap) (h : i ≠ j) :
    (addr + i) % cap ≠ (addr + j) % cap := by
  intro he
  have hc : 0 < cap := by omega
  have : i % cap = j % cap := Nat.ModEq.add_left_cancel' addr he
  rw [Nat.mod_eq_of_lt hi, Nat.mod_eq_of_lt hj] at this
  exact h this

/-- MemWrite stores its k-th byte at its k-th index, when it is given at most C bytes. -/
theorem memWrite_read_at {cap : Nat} {m : Memory} {addr k : Nat} {v : List Byte} (hm : m.wf = true)
    (hv : v.length ≤ cap) (hk : k < v.length) : (memWrite cap m addr v).read ((addr + k) % cap) = v[k] := by
  induction v generalizing m addr k with
  | nil => simp at hk
  | cons b bs ih =>
    rw [memWrite_cons]
    simp only [List.length_cons] at hv hk
    cases k with
    | zero =>
      rw [memWrite_read_of_ne]
      · simpa using Memory.read_write_self _ _ hm
      · intro j hj
        rw [show addr + 1 + j = addr + (j + 1) by omega]
        exact offset_ne (by omega) (by omega) (by omega)
    | succ k =>
      rw [show addr + (k + 1) = addr + 1 + k by omega, ih (Memory.wf_write _ _ hm) (by omega) (by omega)]
      simp

/-! ### MemRead -/

@[simp] theorem memRead_length (cap : Nat) (m : Memory) (addr n : Nat) : (memRead cap m addr n).length = n := by
  simp [memRead]

@[simp] theorem memRead_getElem (cap : Nat) (m : Memory) (addr n k : Nat) (h : k < (memRead cap m addr n).length) :
    (memRead cap m addr n)[k] = m.read ((addr + k) % cap) := by simp [memRead]

@[simp] theorem memRead_zero (cap : Nat) (m : Memory) (addr : Nat) : memRead cap m addr 0 = [] := rfl

/-- A shorter MemRead is a prefix of a longer one. -/
theorem memRead_take {cap : Nat} {m : Memory} {addr n k : Nat} (h : k ≤ n) :
    (memRead cap m addr n).take k = memRead cap m addr k := by
  apply List.ext_getElem
  · simp [h]
  · intro i h1 h2; simp

/-- A MemRead from k bytes on is the rest of the one from the start. -/
theorem memRead_drop {cap : Nat} {m : Memory} {addr n k : Nat} :
    (memRead cap m addr n).drop k = memRead cap m ((addr + k) % cap) (n - k) := by
  apply List.ext_getElem
  · simp
  · intro i h1 h2; simp [Nat.add_assoc]

/-- MemRead sees only the bytes of the store. -/
theorem memRead_congr {cap : Nat} {m m' : Memory} {addr n : Nat}
    (h : ∀ k, k < n → m'.read ((addr + k) % cap) = m.read ((addr + k) % cap)) :
    memRead cap m' addr n = memRead cap m addr n := by
  apply List.ext_getElem
  · simp
  · intro i h1 h2
    simp only [memRead_length] at h1
    simp [h i h1]

end Sys2Proof.Machine
end

