-- ==== Sys2Proof/Laws/Fifo.lean ====
section
/-! SUPPORT. The FIFO primitives on Q (10_state R27) and on the invariants (42_fifo R129). -/

namespace Sys2Proof.Machine

@[simp] theorem Block.content_length (b : Block) : b.content.length = b.len := by simp [Block.content]

/-- FifoPeek returns `take n Q` (42_fifo R121). -/
theorem Block.fifoPeek_eq {b : Block} {n : Nat} (h : n ≤ b.len) : b.fifoPeek n = b.content.take n := by
  rw [Block.fifoPeek, Block.content, memRead_take h]

@[simp] theorem Block.fifoPeek_length (b : Block) (n : Nat) : (b.fifoPeek n).length = n := by simp [Block.fifoPeek]

/-- FifoSeek sets Q to `drop n Q` (42_fifo R122). -/
theorem Block.content_fifoSeek (b : Block) (n : Nat) : (b.fifoSeek n).content = b.content.drop n := by
  simp [Block.content, memRead_drop]

/-- FifoFlush sets Q to `[]` (42_fifo R123). -/
@[simp] theorem Block.content_fifoFlush (b : Block) : b.fifoFlush.content = [] := by simp [Block.content]

theorem Block.accepts_le_room (b : Block) (d : List Byte) : b.accepts d ≤ b.capacity - b.len := Nat.min_le_right _ _

theorem Block.accepts_le_length (b : Block) (d : List Byte) : b.accepts d ≤ d.length := Nat.min_le_left _ _

/-- FifoPush appends the bytes that fit to Q (42_fifo R120). -/
theorem Block.content_fifoPush {b : Block} (d : List Byte) (hc : b.CursorsOk) (hm : b.mem.wf = true) :
    (b.fifoPush d).content = b.content ++ d.take (b.accepts d) := by
  obtain ⟨h1, h2, h3⟩ := hc
  have ha := b.accepts_le_room d
  have hl := b.accepts_le_length d
  have htail : ∀ k, (b.tail + k) % b.capacity = (b.head + (b.len + k)) % b.capacity := by
    intro k; rw [h3, Nat.mod_add_mod, Nat.add_assoc]
  have hv : (d.take (b.accepts d)).length = b.accepts d := by simp [hl]
  apply List.ext_getElem
  · simp [hl]
  · intro i hi1 hi2
    simp only [Block.content, Block.fifoPush_capacity, Block.fifoPush_mem, Block.fifoPush_head, Block.fifoPush_len,
      memRead_getElem, memRead_length] at hi1 ⊢
    by_cases hi : i < b.len
    · rw [List.getElem_append_left (by simpa using hi), memRead_getElem, memWrite_read_of_ne]
      intro k hk
      rw [hv] at hk
      rw [htail]
      exact offset_ne (by omega) (by omega) (by omega)
    · rw [List.getElem_append_right (by simpa using hi)]
      have := memWrite_read_at (cap := b.capacity) (m := b.mem) (addr := b.tail) (k := i - b.len)
        (v := d.take (b.accepts d)) hm (by omega) (by omega)
      rw [htail, show b.head + (b.len + (i - b.len)) = b.head + i by omega] at this
      simpa using this

/-! ### The invariants of 42_fifo R129 -/

theorem Block.cursorsOk_fifoSeek {b : Block} {n : Nat} (h : b.CursorsOk) (hn : n ≤ b.len) :
    (b.fifoSeek n).CursorsOk := by
  obtain ⟨h1, h2, h3⟩ := h
  refine ⟨by simp; omega, Nat.mod_lt _ (show 0 < b.capacity by omega), ?_⟩
  simp [h3, show b.head + n + (b.len - n) = b.head + b.len by omega]

theorem Block.memoryOk_fifoPush {b : Block} (d : List Byte) (hc : 0 < b.capacity) (h : b.MemoryOk) :
    (b.fifoPush d).MemoryOk :=
  ⟨memWrite_wf _ _ h.1, memWrite_bound _ _ hc h.2⟩

end Sys2Proof.Machine
end

