-- ==== Sys2Proof/Laws/Synchronizer.lean ====
section
/-! SUPPORT. The scan loop (43_synchronizer R141): its fuel does not matter, its induction principle, and what it leaves
alone. -/

namespace Sys2Proof.Machine

/-- The machine after one resync step: the candidate decoded, one byte slid past. -/
abbrev State.resynced (s : State) : State := (s.afterDecode (s.block.fifoPeek 256)).seek 1

/-- The machine after a whole frame is consumed. -/
abbrev State.consumed (s : State) : State := (s.afterDecode (s.block.fifoPeek 256)).seek 256

theorem scanLoop_short {n : Nat} {s : State} (h : s.block.len < 256) : scanLoop n s = ⟨s, 0, 0, []⟩ := by
  cases n with
  | zero => rfl
  | succ n => simp [scanLoop, Block.syncMode, h]

theorem scanLoop_resync {n : Nat} {s : State} {r : Reason} (h : 256 ≤ s.block.len)
    (hv : s.verdict (s.block.fifoPeek 256) = .invalid r) :
    scanLoop (n + 1) s = { scanLoop n s.resynced with skips := (scanLoop n s.resynced).skips + 1 } := by
  simp [scanLoop, Block.syncMode, show ¬ s.block.len < 256 by omega, hv]

theorem scanLoop_accept {n : Nat} {s : State} {m : SlotMessage} (h : 256 ≤ s.block.len)
    (hv : s.verdict (s.block.fifoPeek 256) = .ok m) :
    scanLoop (n + 1) s =
      { scanLoop n s.consumed with
        frames := (scanLoop n s.consumed).frames + 1
        events := dispatch s.block.ctrl m ++ (scanLoop n s.consumed).events } := by
  simp [scanLoop, Block.syncMode, show ¬ s.block.len < 256 by omega, hv]

/-- Any fuel of at least LEN gives the same scan: the bound never ends the loop (entry 9). -/
theorem scanLoop_fuel {n m : Nat} {s : State} (hn : s.block.len ≤ n) (hm : s.block.len ≤ m) :
    scanLoop n s = scanLoop m s := by
  induction n generalizing m s with
  | zero => rw [scanLoop_short (by omega), scanLoop_short (by omega)]
  | succ n ih =>
    by_cases h : s.block.len < 256
    · rw [scanLoop_short h, scanLoop_short h]
    · obtain ⟨m, rfl⟩ : ∃ k, m = k + 1 := ⟨m - 1, by omega⟩
      cases hv : s.verdict (s.block.fifoPeek 256) with
      | invalid r =>
        rw [scanLoop_resync (by omega) hv, scanLoop_resync (by omega) hv,
          ih (m := m) (s := s.resynced) (by simp; omega) (by simp; omega)]
      | ok msg =>
        rw [scanLoop_accept (by omega) hv, scanLoop_accept (by omega) hv,
          ih (m := m) (s := s.consumed) (by simp; omega) (by simp; omega)]

theorem scan_short {s : State} (h : s.block.len < 256) : scan s = ⟨s, 0, 0, []⟩ := scanLoop_short h

theorem scan_resync {s : State} {r : Reason} (h : 256 ≤ s.block.len)
    (hv : s.verdict (s.block.fifoPeek 256) = .invalid r) :
    scan s = { scan s.resynced with skips := (scan s.resynced).skips + 1 } := by
  rw [scan, scanLoop_fuel (m := s.block.len - 1 + 1) (Nat.le_refl _) (by omega), scanLoop_resync h hv]
  rfl

theorem scan_accept {s : State} {m : SlotMessage} (h : 256 ≤ s.block.len)
    (hv : s.verdict (s.block.fifoPeek 256) = .ok m) :
    scan s =
      { scan s.consumed with
        frames := (scan s.consumed).frames + 1
        events := dispatch s.block.ctrl m ++ (scan s.consumed).events } := by
  rw [scan, scanLoop_fuel (m := s.block.len - 1 + 1) (Nat.le_refl _) (by omega), scanLoop_accept h hv,
    scanLoop_fuel (n := s.block.len - 1) (m := s.consumed.block.len) (by simp; omega) (Nat.le_refl _)]
  rfl

/-- Induction along a scan: what holds of a stopped scan, and is kept by a resync step and by a consumed frame, holds of
every scan. -/
theorem scan_induct {P : State → ScanResult → Prop}
    (short : ∀ s, s.block.len < 256 → P s ⟨s, 0, 0, []⟩)
    (resync : ∀ s r, 256 ≤ s.block.len → s.verdict (s.block.fifoPeek 256) = .invalid r →
      P s.resynced (scan s.resynced) → P s { scan s.resynced with skips := (scan s.resynced).skips + 1 })
    (accept : ∀ s m, 256 ≤ s.block.len → s.verdict (s.block.fifoPeek 256) = .ok m →
      P s.consumed (scan s.consumed) →
      P s { scan s.consumed with
        frames := (scan s.consumed).frames + 1
        events := dispatch s.block.ctrl m ++ (scan s.consumed).events })
    (s : State) : P s (scan s) := by
  generalize hn : s.block.len = n
  induction n using Nat.strong_induction_on generalizing s with
  | _ n ih =>
    by_cases h : s.block.len < 256
    · rw [scan_short h]
      exact short s h
    · cases hv : s.verdict (s.block.fifoPeek 256) with
      | invalid r =>
        rw [scan_resync (by omega) hv]
        exact resync s r (by omega) hv (ih s.resynced.block.len (by simp; omega) _ rfl)
      | ok m =>
        rw [scan_accept (by omega) hv]
        exact accept s m (by omega) hv (ih s.consumed.block.len (by simp; omega) _ rfl)

/-- A scan moves HEAD and LEN alone, and uses up draws. -/
theorem scan_frame (s : State) :
    (scan s).state.block =
        { s.block with head := (scan s).state.block.head, len := (scan s).state.block.len }
      ∧ (scan s).state.pending = s.pending ∧ (scan s).state.results = s.results := by
  refine scan_induct (P := fun s r =>
    r.state.block = { s.block with head := r.state.block.head, len := r.state.block.len }
      ∧ r.state.pending = s.pending ∧ r.state.results = s.results) ?_ ?_ ?_ s
  · intro s _; exact ⟨rfl, rfl, rfl⟩
  · intro s r _ _ h; exact h
  · intro s m _ _ h; simpa using h

/-- A scan draws from the machine's own stream. -/
@[simp] theorem scan_drawStream (s : State) : (scan s).state.drawStream = s.drawStream := by
  refine scan_induct (P := fun s r => r.state.drawStream = s.drawStream) ?_ ?_ ?_ s
  · intro s _; rfl
  · intro s r _ _ h; simpa using h
  · intro s m _ _ h; simpa using h

/-- A scan stops with less than a frame left, and counts every byte it takes (43_synchronizer R144). -/
theorem scan_counts (s : State) :
    (scan s).state.block.len < 256
      ∧ (scan s).skips + 256 * (scan s).frames + (scan s).state.block.len = s.block.len := by
  refine scan_induct (P := fun s r =>
    r.state.block.len < 256 ∧ r.skips + 256 * r.frames + r.state.block.len = s.block.len) ?_ ?_ ?_ s
  · intro s h; exact ⟨h, by simp⟩
  · intro s r hl _ h
    simp only [State.seek_block, State.afterDecode_block, Block.fifoSeek_len] at h
    exact ⟨h.1, by simp only; omega⟩
  · intro s m hl _ h
    simp only [State.seek_block, State.afterDecode_block, Block.fifoSeek_len] at h
    simp only
    omega

/-- A scan keeps the three invariants of 42_fifo R129. -/
theorem scan_cursorsOk (s : State) : s.block.CursorsOk → (scan s).state.block.CursorsOk := by
  refine scan_induct (P := fun s r => s.block.CursorsOk → r.state.block.CursorsOk) ?_ ?_ ?_ s
  · intro s _ h; exact h
  · intro s r hl _ ih h; exact ih (Block.cursorsOk_fifoSeek h (by simp; omega))
  · intro s m hl _ ih h
    have h' : s.consumed.block.CursorsOk := Block.cursorsOk_fifoSeek h (by rw [State.afterDecode_block]; exact hl)
    simpa using ih h'

end Sys2Proof.Machine
end

