-- ==== Sys2Proof/Laws/Exec.lean ====
section
/-! SUPPORT. What each meaning answers, once (the whole result and the machine after it), and that every meaning answers
a next state with one result more. -/

namespace Sys2Proof.Machine

@[simp] theorem exec_nop (s : State) : exec .nop s = .next (s.respond { resp := {} }) := rfl

@[simp] theorem exec_cksum (din : List Byte) (s : State) :
    exec (.cksum din) s = .next (s.respond { resp := { v0 := (checksum din).setWidth 32 } }) := rfl

theorem exec_encode_some {id ty : BitVec 2} {din fr : List Byte} (s : State)
    (h : encodeFrame (id.setWidth 8) (ty.setWidth 8) din = some fr) :
    exec (.encode id ty din) s =
      .next (s.respond { resp := { v0 := (frameChecksum fr).setWidth 32 }, dout := fr }) := by
  simp [exec, execEncode, h]

theorem exec_encode_none {id ty : BitVec 2} {din : List Byte} (s : State)
    (h : encodeFrame (id.setWidth 8) (ty.setWidth 8) din = none) :
    exec (.encode id ty din) s = .next (s.respond { resp := { status := .payloadTooLarge } }) := by
  simp [exec, execEncode, h]

theorem exec_decode_ok {din : List Byte} {s : State} {m : SlotMessage} (h : s.verdict din = .ok m) :
    exec (.decode din) s =
      .next ((s.afterDecode din).respond
        { resp := { v0 := packMessage m.slotId m.slotType m.length }, dout := m.payload }) := by
  simp [exec, execDecode, h]

theorem exec_decode_invalid {din : List Byte} {s : State} {r : Reason} (h : s.verdict din = .invalid r) :
    exec (.decode din) s =
      .next ((s.afterDecode din).respond { resp := { status := .invalid, reason := r } }) := by
  simp [exec, execDecode, h]

@[simp] theorem exec_push (din : List Byte) (s : State) :
    exec (.push din) s =
      .next ((s.withBlock (s.block.fifoPush din)).respond
        { resp :=
            { status := if s.block.drops din > 0 then .capacityExceeded else .ok
              v0 := countWord (s.block.accepts din)
              v1 := countWord (s.block.drops din) } }) := rfl

@[simp] theorem exec_status (s : State) :
    exec .status s =
      .next (s.respond
        { resp :=
            { v0 := countWord s.block.len
              v1 := countWord s.block.capacity
              v2 := statusFlags s.block.ctrl s.block.ovf } }) := rfl

theorem exec_peek_ok {cnt : Half} {s : State} (h : cnt.toNat ≤ s.block.len) :
    exec (.peek cnt) s =
      .next (s.respond { resp := { v0 := cnt.setWidth 32 }, dout := s.block.fifoPeek cnt.toNat }) := by
  simp [exec, execPeek, show ¬ s.block.len < cnt.toNat by omega]

theorem exec_peek_underflow {cnt : Half} {s : State} (h : s.block.len < cnt.toNat) :
    exec (.peek cnt) s =
      .next (s.respond { resp := { status := .underflow, v0 := countWord s.block.len } }) := by
  simp [exec, execPeek, h]

theorem exec_seek_ok {cnt : Half} {s : State} (h : cnt.toNat ≤ s.block.len) :
    exec (.seek cnt) s =
      .next ((s.withBlock (s.block.fifoSeek cnt.toNat)).respond
        { resp := { v0 := countWord (s.block.len - cnt.toNat) } }) := by
  simp [exec, execSeek, show ¬ s.block.len < cnt.toNat by omega]

theorem exec_seek_underflow {cnt : Half} {s : State} (h : s.block.len < cnt.toNat) :
    exec (.seek cnt) s =
      .next (s.respond { resp := { status := .underflow, v0 := countWord s.block.len } }) := by
  simp [exec, execSeek, h]

@[simp] theorem exec_flush (s : State) :
    exec .flush s = .next ((s.withBlock s.block.fifoFlush).respond { resp := {} }) := rfl

@[simp] theorem exec_rx (din : List Byte) (s : State) :
    exec (.rx din) s =
      .next ((scan (s.withBlock (s.block.fifoPush din))).state.respond
        { resp :=
            { status := if s.block.drops din > 0 then .capacityExceeded else .ok
              v0 := countWord (s.block.accepts din)
              v1 := countWord (scan (s.withBlock (s.block.fifoPush din))).frames
              v2 := countWord (scan (s.withBlock (s.block.fifoPush din))).skips }
          events := (scan (s.withBlock (s.block.fifoPush din))).events }) := rfl

@[simp] theorem exec_wrctrl (a b c : Bool) (s : State) :
    exec (.wrctrl a b c) s =
      .next ((s.withBlock { s.block with ctrl := ⟨a, b⟩, ovf := ovfAfterWrctrl c s.block.ovf }).respond
        { resp := {} }) := rfl

/-- Every command answers a next state, with exactly one result more and the host's queue as it was. -/
theorem exec_returns (i : Instr) (s : State) : ∃ t r, exec i s = .next t ∧ s.Returned t r := by
  cases i with
  | nop => exact ⟨_, _, rfl, rfl, rfl⟩
  | cksum din => exact ⟨_, _, rfl, rfl, rfl⟩
  | encode id ty din =>
    cases h : encodeFrame (id.setWidth 8) (ty.setWidth 8) din with
    | none => exact ⟨_, _, exec_encode_none s h, rfl, rfl⟩
    | some fr => exact ⟨_, _, exec_encode_some s h, rfl, rfl⟩
  | decode din =>
    cases h : s.verdict din with
    | invalid r => exact ⟨_, _, exec_decode_invalid h, rfl, rfl⟩
    | ok m => exact ⟨_, _, exec_decode_ok h, rfl, rfl⟩
  | push din => exact ⟨_, _, rfl, rfl, rfl⟩
  | status => exact ⟨_, _, rfl, rfl, rfl⟩
  | peek cnt =>
    by_cases h : cnt.toNat ≤ s.block.len
    · exact ⟨_, _, exec_peek_ok h, rfl, rfl⟩
    · exact ⟨_, _, exec_peek_underflow (by omega), rfl, rfl⟩
  | seek cnt =>
    by_cases h : cnt.toNat ≤ s.block.len
    · exact ⟨_, _, exec_seek_ok h, rfl, rfl⟩
    · exact ⟨_, _, exec_seek_underflow (by omega), rfl, rfl⟩
  | flush => exact ⟨_, _, rfl, rfl, rfl⟩
  | rx din =>
    obtain ⟨_, hp, hr⟩ := scan_frame (s.withBlock (s.block.fifoPush din))
    exact ⟨_, _, exec_rx din s, by rw [State.respond_results, hr]; rfl, by rw [State.respond_pending, hp]; rfl⟩
  | wrctrl a b c => exact ⟨_, _, rfl, rfl, rfl⟩

/-! ### The step -/

theorem step_idle {s : State} (h : s.pending = []) : step s = .next s := by simp [step, State.nextInput, h]

theorem step_reset {s : State} {rest : List HostInput} (h : s.pending = .reset :: rest) :
    step s = .next ({ s with pending := rest } : State).performReset := by simp [step, State.nextInput, h]

theorem step_transaction {s : State} {t : Transaction} {rest : List HostInput}
    (h : s.pending = .transaction t :: rest) : step s = performTransaction t { s with pending := rest } := by
  simp [step, State.nextInput, h]

theorem performTransaction_ok {t : Transaction} {i : Instr} (s : State) (h : decode t = .ok i) :
    performTransaction t s = exec i s := by simp [performTransaction, h]

theorem performTransaction_error {t : Transaction} {e : DecodeError} (s : State) (h : decode t = .error e) :
    performTransaction t s = .next (s.respond { resp := { status := .illegal } }) := by
  cases e <;> simp [performTransaction, h]

end Sys2Proof.Machine
end

