-- ==== Sys2Proof/Laws/PerInstr.lean ====
section
/-! SUPPORT. Facts about commands as syntax, one lemma per constructor of Instr: the word that spells a command matches
the command's own row of the opcode map, and its data-in bytes have the length that word declares. -/

namespace Sys2Proof

/-- The row of the opcode map a command belongs to (30_encoding R62). -/
def Instr.op : Instr → Op
  | .nop => .nop
  | .cksum _ => .cksum
  | .encode _ _ _ => .encode
  | .decode _ => .decode
  | .push _ => .push
  | .status => .status
  | .peek _ => .peek
  | .seek _ => .seek
  | .flush => .flush
  | .rx _ => .rx
  | .wrctrl _ _ _ => .wrctrl

/-- Every row's mask covers OP. -/
theorem opcodeRows_masks : ∀ r ∈ opcodeRows, r.mask &&& 0xF#32 = 0xF#32 := by decide

/-- The rows' OP values are all different (30_encoding R62). -/
theorem opcodeRows_distinct :
    ∀ q ∈ opcodeRows, ∀ r ∈ opcodeRows, q.value &&& 0xF#32 = r.value &&& 0xF#32 → q = r := by decide

/-- A word that matches a row has the row's OP. -/
theorem op_of_matches {cmd : Word} {r : OpcodeRow} (hr : r ∈ opcodeRows) (h : cmd &&& r.mask = r.value) :
    r.value &&& 0xF#32 = cmd &&& 0xF#32 := by
  rw [← h, BitVec.and_assoc, opcodeRows_masks r hr]

/-- A word that matches a row names that row's operation: no other row matches it (30_encoding R62). -/
theorem opOf_eq_of_matches {cmd : Word} {r : OpcodeRow} (hr : r ∈ opcodeRows) (h : cmd &&& r.mask = r.value) :
    opOf cmd = some r.op := by
  have self : r.matchesWord cmd = true := by simpa [OpcodeRow.matchesWord] using h
  cases hf : opcodeRows.find? (fun q => q.matchesWord cmd) with
  | none => exact absurd self (by simpa using List.find?_eq_none.mp hf r hr)
  | some q =>
    have hq := List.mem_of_find?_eq_some hf
    have hqm : cmd &&& q.mask = q.value := by simpa [OpcodeRow.matchesWord] using List.find?_some hf
    have : q = r := opcodeRows_distinct q hq r hr ((op_of_matches hq hqm).trans (op_of_matches hr h).symm)
    simp [opOf, hf, this]

theorem cntField_commandWord (op : BitVec 4) (id ty : BitVec 2) (cnt : Half) :
    cntField (commandWord op id ty cnt) = cnt := by
  apply BitVec.eq_of_getLsbD_eq
  intro i hi
  simp only [cntField, BitVec.getLsbD_extractLsb', hi, decide_true, Bool.true_and, commandWord_getLsbD]
  simp [show ¬ 8 + i < 4 by omega, show ¬ 8 + i < 6 by omega, show 8 + i < 24 by omega]

theorem countOf_toNat {din : List Byte} (h : din.length ≤ countMax) : (countOf din).toNat = din.length := by
  have h' : din.length ≤ 65535 := h
  simp only [countOf, BitVec.toNat_ofNat]
  omega

/-- A command word with ID and TY 0 passes the mask of the rows that read CNT alone. -/
theorem commandWord_and_cntMask (op : BitVec 4) (cnt : Half) :
    commandWord op 0 0 cnt &&& 0xFF0000FF#32 = op.setWidth 32 := by
  rw [and_eq_iff_bits]
  intro i hi
  rw [commandWord_getLsbD]
  interval_cases i <;> simp [BitVec.getLsbD_of_ge]

/-- A command word passes ENCODE's mask. -/
theorem commandWord_and_encodeMask (op : BitVec 4) (id ty : BitVec 2) (cnt : Half) :
    commandWord op id ty cnt &&& 0xFF00000F#32 = op.setWidth 32 := by
  rw [and_eq_iff_bits]
  intro i hi
  rw [commandWord_getLsbD]
  interval_cases i <;> simp [BitVec.getLsbD_of_ge]

namespace Laws

/-- A well-formed command's transaction is legal for the command's own row. -/
def EncodedWord.Statement (i : Instr) : Prop :=
  i.wellFormed = true →
    opOf (encode i).cmd = some i.op ∧ (encode i).din.length = i.op.dataLength (encode i).cmd

theorem EncodedWord.nop : EncodedWord.Statement .nop := fun _ => by decide

theorem EncodedWord.cksum (din : List Byte) : EncodedWord.Statement (.cksum din) := fun h =>
  ⟨opOf_eq_of_matches (r := ⟨.cksum, 0x00000001#32, 0xFF0000FF#32⟩) (by decide) (commandWord_and_cntMask _ _), by
    simp [encode, Instr.op, Op.dataLength, cntField_commandWord, countOf_toNat (by simpa [Instr.wellFormed] using h)]⟩

theorem EncodedWord.encode (id ty : BitVec 2) (din : List Byte) : EncodedWord.Statement (.encode id ty din) := fun h =>
  ⟨opOf_eq_of_matches (r := ⟨.encode, 0x00000002#32, 0xFF00000F#32⟩) (by decide) (commandWord_and_encodeMask _ _ _ _), by
    simp [Sys2Proof.encode, Instr.op, Op.dataLength, cntField_commandWord,
      countOf_toNat (by simpa [Instr.wellFormed] using h)]⟩

theorem EncodedWord.decode (din : List Byte) : EncodedWord.Statement (.decode din) := fun h =>
  ⟨by simp only [Sys2Proof.encode, Instr.op]; decide, by
    simpa [Sys2Proof.encode, Instr.op, Op.dataLength, Instr.wellFormed] using h⟩

theorem EncodedWord.push (din : List Byte) : EncodedWord.Statement (.push din) := fun h =>
  ⟨opOf_eq_of_matches (r := ⟨.push, 0x00000004#32, 0xFF0000FF#32⟩) (by decide) (commandWord_and_cntMask _ _), by
    simp [Sys2Proof.encode, Instr.op, Op.dataLength, cntField_commandWord,
      countOf_toNat (by simpa [Instr.wellFormed] using h)]⟩

theorem EncodedWord.status : EncodedWord.Statement .status := fun _ => by decide

theorem EncodedWord.peek (cnt : Half) : EncodedWord.Statement (.peek cnt) := fun _ =>
  ⟨opOf_eq_of_matches (r := ⟨.peek, 0x00000006#32, 0xFF0000FF#32⟩) (by decide) (commandWord_and_cntMask _ _), rfl⟩

theorem EncodedWord.seek (cnt : Half) : EncodedWord.Statement (.seek cnt) := fun _ =>
  ⟨opOf_eq_of_matches (r := ⟨.seek, 0x00000007#32, 0xFF0000FF#32⟩) (by decide) (commandWord_and_cntMask _ _), rfl⟩

theorem EncodedWord.flush : EncodedWord.Statement .flush := fun _ => by decide

theorem EncodedWord.rx (din : List Byte) : EncodedWord.Statement (.rx din) := fun h =>
  ⟨opOf_eq_of_matches (r := ⟨.rx, 0x00000009#32, 0xFF0000FF#32⟩) (by decide) (commandWord_and_cntMask _ _), by
    simp [Sys2Proof.encode, Instr.op, Op.dataLength, cntField_commandWord,
      countOf_toNat (by simpa [Instr.wellFormed] using h)]⟩

theorem EncodedWord.wrctrl (a b c : Bool) : EncodedWord.Statement (.wrctrl a b c) := fun _ => by
  cases a <;> cases b <;> cases c <;> decide

end Laws
end Sys2Proof
end

