-- ==== Sys2Proof/Tests/Slice0.lean ====
section
/-! SUPPORT. The model's own tests. Expected values come from spec/95_test_vectors (the section is named at each), never
from the model. The last part holds, for each statement with hypotheses, a concrete state and operands that meet them. -/

namespace Sys2Proof.Machine.Test

set_option Elab.async false

/-! ### Helpers -/

/-- The machine after one step on one transaction. -/
def after (s : State) (cmd : Word) (din : List Byte) : Option State :=
  match step (s.present (.transaction ⟨cmd, din⟩)) with
  | .next t => some t
  | .fault _ => none
  | .refused _ => none

/-- What that transaction returned. -/
def answer (s : State) (cmd : Word) (din : List Byte) : Option Result := (after s cmd din).bind (·.results.getLast?)

/-- HEAD, TAIL, LEN, OVF and CTRL after that transaction. -/
def registers (s : State) (cmd : Word) (din : List Byte) : Option (Nat × Nat × Nat × Bool × Ctrl) :=
  (after s cmd din).map fun t => (t.block.head, t.block.tail, t.block.len, t.block.ovf, t.block.ctrl)

/-- Q after that transaction. -/
def queue (s : State) (cmd : Word) (din : List Byte) : Option (List Byte) := (after s cmd din).map (·.block.content)

/-- A machine with capacity `c` and CTRL `ctrl`, whose FIFO holds `q` from index `head` on. -/
def holding (c head : Nat) (q : List Byte) (ovf : Bool := false) (ctrl : Ctrl := ⟨true, true⟩) : State :=
  { State.atReset c with
    block :=
      { capacity := c
        mem := memWrite c [] head q
        head := head
        tail := (head + q.length) % c
        len := q.length
        ovf := ovf
        ctrl := ctrl } }

/-- The machine with `t` as the only input to come. -/
def given (s : State) (cmd : Word) (din : List Byte) : State := { s with pending := [.transaction ⟨cmd, din⟩] }

/-- The frame S of spec/95. -/
def frameS : List Byte :=
  [0x55#8, 2#8, 1#8, 3#8, 0#8, 1#8, 2#8, 3#8] ++ listBytes [.zeros 245] ++ [0x21#8, 0xD7#8, 0xAA#8]
/-- The frame X of spec/95: S with one bit of its checksum flipped. -/
def frameX : List Byte :=
  [0x55#8, 2#8, 1#8, 3#8, 0#8, 1#8, 2#8, 3#8] ++ listBytes [.zeros 245] ++ [0x20#8, 0xD7#8, 0xAA#8]
/-- The frame IOF of spec/95. -/
def frameIo : List Byte :=
  [0x55#8, 0#8, 2#8, 8#8, 0#8] ++ listBytes [.seq 1#8 8, .zeros 240] ++ [0x34#8, 0x75#8, 0xAA#8]
/-- The frame Z0 of spec/95. -/
def frameZ0 : List Byte := [0x55#8, 0#8, 0#8, 0#8, 0#8] ++ listBytes [.zeros 248] ++ [2#8, 0xE9#8, 0xAA#8]
/-- The frame SL of spec/95: the longest payload. -/
def frameSL : List Byte := [0x55#8, 3#8, 0#8, 0xF8#8, 0#8] ++ listBytes [.seq 0#8 248] ++ [0x4A#8, 0xA6#8, 0xAA#8]
/-- The frame S7 of spec/95: a slot id that is no slot. -/
def frameS7 : List Byte := [0x55#8, 7#8, 0#8, 1#8, 0#8, 0xAB#8] ++ listBytes [.zeros 247] ++ [0xB6#8, 0x5D#8, 0xAA#8]
/-- The frame T3 of spec/95. -/
def frameT3 : List Byte :=
  [0x55#8, 0#8, 3#8, 4#8, 0#8, 9#8, 9#8, 9#8, 9#8] ++ listBytes [.zeros 244] ++ [0x0B#8, 0x59#8, 0xAA#8]
/-- The frame I5 of spec/95. -/
def frameI5 : List Byte :=
  [0x55#8, 1#8, 2#8, 5#8, 0#8] ++ listBytes [.seq 1#8 5, .zeros 243] ++ [0xB7#8, 0x85#8, 0xAA#8]
/-- The frame L9 of spec/95: length 249, checksum consistent. -/
def frameL9 : List Byte := [0x55#8, 0#8, 0#8, 0xF9#8, 0#8, 1#8] ++ listBytes [.zeros 247] ++ [0xC2#8, 0x0D#8, 0xAA#8]

/-! ### WellFormed: an ill-formed command for each check -/

theorem test_wf_cksum : Instr.wellFormed (.cksum (List.replicate 65536 0#8)) = false := by
  rw [Instr.wellFormed, List.length_replicate]; rfl
theorem test_wf_encode : Instr.wellFormed (.encode 0#2 0#2 (List.replicate 65536 0#8)) = false := by
  rw [Instr.wellFormed, List.length_replicate]; rfl
theorem test_wf_decode_short : Instr.wellFormed (.decode (List.replicate 255 0#8)) = false := by
  rw [Instr.wellFormed, List.length_replicate]; rfl
theorem test_wf_decode_long : Instr.wellFormed (.decode (List.replicate 257 0#8)) = false := by
  rw [Instr.wellFormed, List.length_replicate]; rfl
theorem test_wf_push : Instr.wellFormed (.push (List.replicate 65536 0#8)) = false := by
  rw [Instr.wellFormed, List.length_replicate]; rfl
theorem test_wf_rx : Instr.wellFormed (.rx (List.replicate 65536 0#8)) = false := by
  rw [Instr.wellFormed, List.length_replicate]; rfl

/-! ### Decode: words written out from 30_encoding R61, R62 and R76 -/

theorem test_decode_nop : decode ⟨0x00000000#32, []⟩ = .ok .nop := by decide
theorem test_decode_cksum :
    decode ⟨0x00000501#32, [3#8, 0#8, 1#8, 2#8, 3#8]⟩ = .ok (.cksum [3#8, 0#8, 1#8, 2#8, 3#8]) := by decide
/-- OP 2, ID 2 in bits 5:4, TY 1 in bits 7:6, CNT 3 in bits 23:8. -/
theorem test_decode_encode :
    decode ⟨0b00000000_0000000000000011_01_10_0010#32, [1#8, 2#8, 3#8]⟩ = .ok (.encode 2#2 1#2 [1#8, 2#8, 3#8]) := by
  decide
theorem test_decode_decode : decode ⟨0x00000003#32, frameS⟩ = .ok (.decode frameS) := by decide +kernel
theorem test_decode_push : decode ⟨0x00000204#32, [7#8, 9#8]⟩ = .ok (.push [7#8, 9#8]) := by decide
theorem test_decode_status : decode ⟨0x00000005#32, []⟩ = .ok .status := by decide
/-- OP 6, CNT 250. -/
theorem test_decode_peek : decode ⟨0b00000000_0000000011111010_00_00_0110#32, []⟩ = .ok (.peek 250#16) := by decide
theorem test_decode_seek : decode ⟨0x00009607#32, []⟩ = .ok (.seek 150#16) := by decide
theorem test_decode_flush : decode ⟨0x00000008#32, []⟩ = .ok .flush := by decide
theorem test_decode_rx : decode ⟨0x00000109#32, [0x55#8]⟩ = .ok (.rx [0x55#8]) := by decide
/-- OP 10, W_SLOT_EN (bit 8) and W_CLR_OVF (bit 10) set, W_IO_EN (bit 9) clear. -/
theorem test_decode_wrctrl :
    decode ⟨0b00000000_0000000000000101_00_00_1010#32, []⟩ = .ok (.wrctrl true false true) := by decide

/-- 95 section 2.6 and 44_control R162: words that match no row. -/
theorem test_illegal_words :
    [0x0000000B#32, 0x0000010F#32, 0x0000001A#32, 0x0000080A#32, 0x00000103#32, 0x80000009#32, 0x01000362#32,
        0x00000105#32, 0x00000014#32, 0x00000011#32, 0x00000041#32].map opOf = List.replicate 11 none := by decide
theorem test_illegal_word_name : decode ⟨0x0000001A#32, []⟩ = .error .commandWord := by decide
/-- 95 sections 2.1, 2.2 and 2.6: legal words with the wrong number of data-in bytes. -/
theorem test_illegal_lengths :
    decode ⟨0x00000201#32, [0#8]⟩ = .error .dataLength ∧ decode ⟨0x00000000#32, [0#8]⟩ = .error .dataLength
      ∧ decode ⟨0x00000106#32, [0#8]⟩ = .error .dataLength
      ∧ decode ⟨0x00000003#32, List.replicate 255 0#8⟩ = .error .dataLength
      ∧ decode ⟨0x0000F902#32, List.replicate 248 0#8⟩ = .error .dataLength := by decide +kernel
/-- No word matches two rows. -/
theorem test_rows_disjoint :
    opcodeRows.Pairwise (fun q r => q.value &&& (q.mask &&& r.mask) ≠ r.value &&& (q.mask &&& r.mask)) := by decide
/-- 30_encoding R77: the pseudo-instructions. -/
theorem test_pseudo :
    encode Pseudo.enable.expand = ⟨0x0000030A#32, []⟩ ∧ encode Pseudo.scan.expand = ⟨0x00000009#32, []⟩ := by decide
/-- 30_encoding R75: `seq` wraps mod 256. -/
theorem test_list_items :
    listBytes [.hex 7#8, .zeros 2, .rep 0x11#8 2, .seq 0xFF#8 2] = [7#8, 0#8, 0#8, 0x11#8, 0x11#8, 0xFF#8, 0#8] := by
  decide
/-- The data-in bytes stand in the bits above CMD, in order. -/
theorem test_table_word : decodeTableWord 48 0x0903_00000204 = some (.push [3#8, 9#8]) := by decide

/-! ### One step of each command, against 95 -/

/-- 95 section 2.6. -/
theorem test_nop : answer (State.atReset 300) 0x00000000#32 [] = some { resp := {} } := by decide +kernel
theorem test_nop_with_data :
    answer (State.atReset 300) 0x00000000#32 [0#8] = some { resp := { status := .illegal } } := by decide +kernel

/-- 95 section 2.1. -/
theorem test_cksum_digits :
    answer (State.atReset 300) 0x00000901#32 (listBytes [.seq 0x31#8 9]) = some { resp := { v0 := 0x89AC#32 } } := by
  decide +kernel
theorem test_cksum_empty : answer (State.atReset 300) 0x00000001#32 [] = some { resp := { v0 := 0xEF4A#32 } } := by
  decide +kernel

/-- 95 section 1.1. -/
theorem test_encode_scenario :
    answer (State.atReset 300) 0x00000362#32 [1#8, 2#8, 3#8] = some { resp := { v0 := 0xD721#32 }, dout := frameS } := by
  decide +kernel
/-- 95 section 1.2. -/
theorem test_encode_too_large :
    answer (State.atReset 300) 0x0000F902#32 (List.replicate 249 0#8)
      = some { resp := { status := .payloadTooLarge } } := by decide +kernel

/-- 95 section 2.3. -/
theorem test_decode_scenario :
    answer (State.atReset 300) 0x00000003#32 frameS
      = some { resp := { v0 := 0x00030102#32 }, dout := [1#8, 2#8, 3#8] } := by decide +kernel
/-- 95 section 2.3: the reason of each invalid frame, by the step that fails first. -/
theorem test_decode_reasons :
    ∀ draw, decodeFrame draw (frameS.set 0 0x54#8) = .invalid .marker
      ∧ decodeFrame draw frameX = .invalid .checksum ∧ decodeFrame draw frameL9 = .invalid .length
      ∧ decodeFrame draw frameI5 = .invalid .ioLength ∧ decodeFrame draw frameT3 = .invalid .type := by decide +kernel

/-- 95 section 2.4, step 6: the push wraps past index 299. -/
theorem test_push_wraps :
    registers (holding 300 150 (listBytes [.seq 150#8 50])) 0x0000C804#32 (listBytes [.seq 200#8 200])
      = some (150, 100, 250, false, ⟨true, true⟩) := by decide +kernel
/-- 95 section 2.4, step 9, with its first 250 bytes zero. -/
theorem test_push_overflows :
    answer (holding 300 150 (zeros 250)) 0x00003C04#32 (List.replicate 60 0xEE#8)
      = some { resp := { status := .capacityExceeded, v0 := 50#32, v1 := 10#32 } } := by decide +kernel

/-- 95 section 2.4, step 12. -/
theorem test_status :
    answer (holding 300 150 (zeros 300) true ⟨false, false⟩) 0x00000005#32 []
      = some { resp := { v0 := 300#32, v1 := 300#32, v2 := 0x100#32 } } := by decide +kernel

/-- 95 section 2.4, steps 7 and 2. -/
theorem test_peek :
    answer (holding 300 150 (listBytes [.seq 0x96#8 50])) 0x00000406#32 []
      = some { resp := { v0 := 4#32 }, dout := [0x96#8, 0x97#8, 0x98#8, 0x99#8] } := by decide +kernel
theorem test_peek_empty :
    answer (State.atReset 300) 0x00000106#32 [] = some { resp := { status := .underflow } } := by decide +kernel

/-- 95 section 2.4, steps 4 and 5. -/
theorem test_seek :
    registers (holding 300 0 (listBytes [.seq 0#8 200])) 0x00009607#32 [] = some (150, 200, 50, false, ⟨true, true⟩) := by
  decide +kernel
theorem test_seek_past_len :
    answer (holding 300 150 (listBytes [.seq 150#8 50])) 0x00003307#32 []
      = some { resp := { status := .underflow, v0 := 50#32 } } := by decide +kernel

/-- 95 section 2.4, step 13; CTRL stays (42_fifo R123). -/
theorem test_flush :
    registers (holding 300 150 (zeros 300) true) 0x00000008#32 [] = some (0, 0, 0, false, ⟨true, true⟩) := by
  decide +kernel

/-- 95 section 2.5, the first row. -/
theorem test_rx_frame :
    answer (holding 512 0 []) 0x00010009#32 frameS
      = some { resp := { v0 := 256#32, v1 := 1#32 }, events := [.slot 2#2 1#8 3#16 [1#8, 2#8, 3#8]] } := by
  decide +kernel
/-- 95 section 2.5, the last row: an overflowing RX still scans. -/
theorem test_rx_overflow :
    answer (holding 300 0 (List.replicate 100 0x11#8)) 0x00010A09#32 (frameS ++ List.replicate 10 0x22#8)
      = some { resp := { status := .capacityExceeded, v0 := 200#32, v2 := 45#32 } } := by decide +kernel

/-- 95 section 2.6. -/
theorem test_wrctrl_clears_ovf :
    registers (holding 300 0 [] true ⟨false, true⟩) 0x0000050A#32 [] = some (0, 0, 0, false, ⟨true, false⟩) := by
  decide +kernel
theorem test_wrctrl_bit_4 :
    answer (holding 300 0 []) 0x0000001A#32 [] = some { resp := { status := .illegal } } := by decide +kernel

/-- 95 section 1.5, the resync scenario. -/
theorem test_resync :
    answer (holding 1024 0 []) 0x00020009#32 (frameX ++ frameS)
      = some
        { resp := { v0 := 512#32, v1 := 1#32, v2 := 256#32 }
          events := [.slot 2#2 1#8 3#16 [1#8, 2#8, 3#8]] } := by decide +kernel

/-! ### The statements' hypotheses: for each statement that has some, a state and operands that meet them -/

/-- A full FIFO whose content wraps past the end of MEM. -/
def fullState : State :=
  { State.atReset 300 with
    block :=
      { capacity := 300, mem := [(0, 3#8), (150, 1#8), (299, 2#8)], head := 150, tail := 150, len := 300
        ovf := false, ctrl := ⟨true, true⟩ } }

/-- Another instance. -/
def otherState : State := State.atReset 256

/-- S with the length 251, the last whose window lies inside the frame. -/
def frame251 : List Byte := frameS.set 3 0xFB#8

/-- S with the length 252, the first whose window runs past the frame. -/
def frame252 : List Byte := frameS.set 3 0xFC#8

/-- A transaction whose answer is `r` is a step that returns exactly `r`. -/
theorem step_of_answer {s : State} {cmd : Word} {din : List Byte} {r : Result} (h : answer s cmd din = some r) :
    ∃ u, step (s.present (.transaction ⟨cmd, din⟩)) = .next u ∧ u.results = s.results ++ [r] := by
  have hs : ∃ u r', step (s.present (.transaction ⟨cmd, din⟩)) = .next u ∧ u.results = s.results ++ [r'] := by
    rw [step_transaction rfl]
    cases hd : decode ⟨cmd, din⟩ with
    | error e => exact ⟨_, _, performTransaction_error _ hd, rfl⟩
    | ok i =>
      obtain ⟨t, r', ht, hr⟩ := exec_returns i { s with pending := s.pending }
      exact ⟨t, r', (performTransaction_ok _ hd).trans ht, hr.1⟩
  obtain ⟨u, r', hu, hr⟩ := hs
  refine ⟨u, hu, ?_⟩
  simp only [answer, after, hu, hr, Option.bind_some, List.getLast?_append, List.getLast?_singleton, Option.some_or,
    Option.some.injEq] at h
  rw [hr, h]

theorem test_hyp_ResetPutsEveryElement :
    ({ fullState with pending := [.reset, .reset] } : State).pending = .reset :: [.reset] := rfl
theorem test_hyp_IdleBlockHoldsState : fullState.pending = [] := rfl
theorem test_hyp_StepRunsDecodedInstruction :
    (given fullState 0x00009607#32 []).pending = .transaction ⟨0x00009607#32, []⟩ :: []
      ∧ decode ⟨0x00009607#32, []⟩ = .ok (.seek 150#16) := ⟨rfl, by decide⟩
theorem test_hyp_EveryTransactionReturnsOneResult :
    (given fullState 0x0000001A#32 []).pending = .transaction ⟨0x0000001A#32, []⟩ :: [] := rfl
theorem test_hyp_EveryTransactionReturnsOneResult_events :
    ∃ u, step ((holding 512 0 []).present (.transaction ⟨0x00010009#32, frameS⟩)) = .next u
      ∧ u.results = [] ++ [⟨{ v0 := 256#32, v1 := 1#32 }, [], [.slot 2#2 1#8 3#16 [1#8, 2#8, 3#8]]⟩] :=
  step_of_answer test_rx_frame
theorem test_hyp_InstancesShareNothing :
    (0 : Nat) ≠ 1 ∧ ([fullState, otherState] : System)[1]? = some otherState ∧ step otherState = .next otherState :=
  ⟨by decide, rfl, step_idle rfl⟩
/-- Two instances of a system of two, of which one steps. -/
theorem test_hyp_InstancesDrawFromTheirOwnStreams :
    (0 : Nat) ≠ 1 ∧ (System.atReset [300, 256])[0]? = some (State.atReset 300 0)
      ∧ (System.atReset [300, 256])[1]? = some (State.atReset 256 1)
      ∧ (∃ t r, exec (.decode frame252) (State.atReset 256 1) = .next t ∧ (State.atReset 256 1).Returned t r)
      ∧ step (State.atReset 256 1) = .next (State.atReset 256 1) :=
  ⟨by decide, rfl, rfl, exec_returns _ _, step_idle rfl⟩
theorem test_hyp_DecodeOfEncodeIsInstruction :
    Instr.wellFormed (.encode 3#2 1#2 (List.replicate 65535 0#8)) = true ∧ Instr.wellFormed (.decode frameS) = true :=
  ⟨by rw [Instr.wellFormed, List.length_replicate]; rfl, by decide +kernel⟩
theorem test_hyp_EncodeOfDecodeIsTransaction : decode ⟨0x000000F2#32, []⟩ = .ok (.encode 3#2 3#2 []) := by decide
theorem test_hyp_OpcodeMapIsTheTable :
    opOf 0x0000000B#32 = none
      ∧ (given fullState 0x0000000B#32 [1#8]).pending = .transaction ⟨0x0000000B#32, [1#8]⟩ :: [] := ⟨by decide, rfl⟩
theorem test_hyp_ReservedWordsAnswerIllegal :
    (given fullState 0x0000080A#32 []).pending = .transaction ⟨0x0000080A#32, []⟩ :: []
      ∧ ∀ r ∈ opcodeRows, r.matchesWord 0x0000080A#32 = false := ⟨rfl, by decide⟩
/-- One byte too many, one too few, and a DECODE of 255 bytes. -/
theorem test_hyp_WrongDataLengthAnswersIllegal :
    (given fullState 0x00000005#32 [1#8]).pending = .transaction ⟨0x00000005#32, [1#8]⟩ :: []
      ∧ opOf 0x00000005#32 = some .status ∧ [1#8].length ≠ 0
      ∧ opOf 0x00000204#32 = some .push ∧ [1#8].length ≠ ((0x00000204#32 : Word).toNat / 256) % 65536
      ∧ opOf 0x00000003#32 = some .decode ∧ (zeros 255).length ≠ 256 := by decide +kernel
theorem test_hyp_PseudoInstructionsExpand : (listBytes [.seq 1#8 8]).length = 8 := by decide
theorem test_hyp_FifoInvariantsAreKept :
    fullState.block.CursorsOk ∧ 300 ≤ fullState.block.len
      ∧ exec .flush fullState = .next ((fullState.withBlock fullState.block.fifoFlush).respond { resp := {} })
      ∧ step fullState = .next fullState
      ∧ (∀ d, Instr.peek 1#16 ≠ .push d) ∧ (∀ d, Instr.peek 1#16 ≠ .rx d) ∧ (∀ n, Instr.peek 1#16 ≠ .seek n)
      ∧ Instr.peek 1#16 ≠ .flush ∧ ∃ t r, exec (.peek 1#16) fullState = .next t ∧ fullState.Returned t r :=
  ⟨by decide +kernel, by decide +kernel, rfl, step_idle rfl, nofun, nofun, nofun, nofun, exec_returns _ _⟩
theorem test_hyp_StepKeepsInvariant :
    (given fullState 0x00009607#32 []).Inv
      ∧ ∃ u, step (given fullState 0x00009607#32 []) = .next u ∧ u.results = [] ++ [⟨{ v0 := 150#32 }, [], []⟩] :=
  ⟨by decide +kernel, step_of_answer (s := fullState) (by decide +kernel)⟩
/-- The longest length that takes no draw. -/
theorem test_hyp_ReadOnlyCommandsAreIdempotent :
    ReadsOnly (.decode frame251) = true ∧ (frameLength frame251).toNat = 251 := by decide +kernel
theorem test_hyp_OnlyPushAndRxWriteMemory :
    (∀ d, Instr.seek 1#16 ≠ .push d) ∧ (∀ d, Instr.seek 1#16 ≠ .rx d) ∧ ∃ t r, exec (.seek 1#16) fullState = .next t
      ∧ fullState.Returned t r := ⟨nofun, nofun, exec_returns _ _⟩
/-- A command for each clause: PUSH keeps CTRL and HEAD, SEEK keeps TAIL, WRCTRL keeps LEN. -/
theorem test_hyp_RegistersChangeOnlyByTheirCommands :
    (∀ a b c, Instr.push [1#8] ≠ .wrctrl a b c) ∧ (∀ n, Instr.push [1#8] ≠ .seek n)
      ∧ (∀ d, Instr.push [1#8] ≠ .rx d) ∧ Instr.push [1#8] ≠ .flush
      ∧ (∀ d, Instr.seek 1#16 ≠ .push d) ∧ (∀ d, Instr.seek 1#16 ≠ .rx d) ∧ Instr.seek 1#16 ≠ .flush
      ∧ (∀ n, Instr.wrctrl true true true ≠ .seek n) ∧ (∀ d, Instr.wrctrl true true true ≠ .push d)
      ∧ ∀ i, ∃ t r, exec i fullState = .next t ∧ fullState.Returned t r :=
  ⟨nofun, nofun, nofun, nofun, nofun, nofun, nofun, nofun, nofun, fun i => exec_returns i _⟩
theorem test_hyp_OverflowFlagIsSticky :
    Instr.seek 1#16 ≠ .status ∧ ∃ t r, exec (.push [1#8]) fullState = .next t ∧ fullState.Returned t r :=
  ⟨nofun, exec_returns _ _⟩
/-- INVALID, an error without effect. -/
theorem test_hyp_ErrorsLeaveStateUnchanged :
    ∃ u, step ((holding 300 9 [1#8]).present (.transaction ⟨0x00000003#32, frameX⟩)) = .next u
      ∧ u.results = [] ++ [⟨{ status := .invalid, reason := .checksum }, [], []⟩] :=
  step_of_answer (by decide +kernel)
/-- CAPACITY_EXCEEDED, by a PUSH and by an RX. -/
theorem test_hyp_ErrorsLeaveStateUnchanged_capacity :
    (∃ u, step (fullState.present (.transaction ⟨0x00000104#32, [1#8]⟩)) = .next u
        ∧ u.results = [] ++ [⟨{ status := .capacityExceeded, v1 := 1#32 }, [], []⟩])
      ∧ ∃ u, step (fullState.present (.transaction ⟨0x00000109#32, [1#8]⟩)) = .next u
        ∧ u.results = [] ++ [⟨{ status := .capacityExceeded, v2 := 45#32 }, [], []⟩] :=
  ⟨step_of_answer (by decide +kernel), step_of_answer (by decide +kernel)⟩
/-- The same Q at two places of MEM, with other bytes around it. -/
theorem test_hyp_SameQueueCannotBeToldApart :
    (holding 300 7 [1#8, 2#8]).Inv ∧ (holding 300 299 [1#8, 2#8]).Inv
      ∧ (holding 300 7 [1#8, 2#8]).SameView (holding 300 299 [1#8, 2#8])
      ∧ (holding 300 7 [1#8, 2#8]).block.head ≠ (holding 300 299 [1#8, 2#8]).block.head :=
  ⟨by decide +kernel, by decide +kernel, ⟨⟨rfl, by decide +kernel, rfl, rfl⟩, ⟨rfl, rfl⟩, rfl, rfl⟩, by decide⟩
theorem test_hyp_OneChangedByteChangesChecksum : (0x02#8 : Byte) ≠ 0x03#8 := by decide
/-- The lengths 249 and 248, and a padding byte of a frame of 247. -/
theorem test_hyp_EncodedFrameLayout :
    248 < (zeros 249).length ∧ (zeros 248).length ≤ 248 ∧ 5 + (zeros 247).length ≤ 252 ∧ 252 < 253 := by
  decide +kernel
theorem test_hyp_EncodeReturnsFrameAndChecksum : (zeros 248).length ≤ 248 ∧ ([] : List Byte).length ≤ 248 := by
  decide +kernel
theorem test_hyp_EncodeRejectsLongPayload : 248 < (zeros 249).length := by decide +kernel
/-- A frame for each clause, those with the length 252 under each draw. -/
theorem test_hyp_FirstFailingStepIsReported :
    (∀ fr ∈ [frameS.set 255 0xAB#8, frameX, frame252, frameL9, frameI5, frameT3, frameS, frameIo], fr.length = 256)
      ∧ ¬ byteAt (frameS.set 255 0xAB#8) 255 = 0xAA#8
      ∧ (∀ fr ∈ [frameX, frame252, frameL9, frameI5, frameT3, frameS, frameIo],
          byteAt fr 0 = 0x55#8 ∧ byteAt fr 255 = 0xAA#8)
      ∧ ¬ checksum (slice frameX 3 8) = le16 (byteAt frameX 253) (byteAt frameX 254)
      ∧ ¬ 5 + ((byteAt frame252 3).toNat + 256 * (byteAt frame252 4).toNat) ≤ 256
      ∧ checksum (slice frameL9 3 254) = le16 (byteAt frameL9 253) (byteAt frameL9 254) ∧ byteAt frameL9 2 = 0#8
      ∧ (frameLength frameL9).toNat = 249
      ∧ checksum (slice frameI5 3 10) = le16 (byteAt frameI5 253) (byteAt frameI5 254) ∧ byteAt frameI5 2 = 2#8
      ∧ checksum (slice frameT3 3 9) = le16 (byteAt frameT3 253) (byteAt frameT3 254) ∧ byteAt frameT3 2 = 3#8
      ∧ checksum (slice frameS 3 8) = le16 (byteAt frameS 253) (byteAt frameS 254) ∧ byteAt frameS 2 = 1#8
      ∧ checksum (slice frameIo 3 13) = le16 (byteAt frameIo 253) (byteAt frameIo 254) ∧ byteAt frameIo 2 = 2#8 := by
  decide +kernel
theorem test_hyp_DrawDecidesReasonAlone :
    (∀ fr ∈ [frame251, frame252], fr.length = 256 ∧ byteAt fr 0 = 0x55#8 ∧ byteAt fr 255 = 0xAA#8)
      ∧ (frameLength frame251).toNat ≤ 251 ∧ 252 ≤ (frameLength frame252).toNat := by decide +kernel
theorem test_hyp_DecodeAcceptsExactlyValidFrames : frameL9.length = 256 ∧ 248 < (frameLength frameL9).toNat := by
  decide +kernel
theorem test_hyp_DecodedMessageFields :
    frameS.length = 256 ∧ decodeFrame true frameS = .ok ⟨2#8, 1#8, 3#16, [1#8, 2#8, 3#8]⟩ := by decide +kernel
/-- The payload lengths 0, 8 and 248 among them. -/
theorem test_hyp_DecodeReturnsMessage : ∀ fr ∈ [frameS, frameZ0, frameIo, frameSL, frameS7], ValidFrame fr := by
  decide +kernel
theorem test_hyp_DecodeReportsInvalidFrames :
    ∀ fr ∈ [frameX, frame252, frameL9, frameT3], fr.length = 256 ∧ ¬ ValidFrame fr := by decide +kernel
/-- S and S with another padding byte; an invalid frame and a valid one. -/
theorem test_hyp_PaddingAndSlotIdDoNotMatter :
    frameS.length = 256 ∧ (frameS.set 252 0x77#8).length = 256
      ∧ (∀ k, k < 256 → ¬ (5 + (frameLength frameS).toNat ≤ k ∧ k < 253) →
          byteAt (frameS.set 252 0x77#8) k = byteAt frameS k)
      ∧ decodeFrame true frameX = .invalid .checksum
      ∧ decodeFrame true frameS = .ok ⟨2#8, 1#8, 3#16, [1#8, 2#8, 3#8]⟩ := by decide +kernel
theorem test_hyp_DecodeOfEncodedFrame :
    (zeros 248).length ≤ 248 ∧ (zeros 8).length = 8 ∧ (zeros 7).length ≠ 8 := by decide +kernel
/-- A push that fits exactly, and one that does not. -/
theorem test_hyp_PushAppendsWhatFits :
    (holding 300 150 (zeros 299)).Inv ∧ [1#8].length ≤ 65535 ∧ fullState.Inv ∧ [1#8, 2#8].length ≤ 65535 := by
  decide +kernel
theorem test_hyp_StatusReportsState : fullState.Inv := by decide +kernel
theorem test_hyp_PeekReturnsOldestBytes : (300#16).toNat ≤ fullState.block.len := by decide +kernel
theorem test_hyp_PeekOrSeekPastLenUnderflows : fullState.Inv ∧ fullState.block.len < (301#16).toNat := by
  decide +kernel
theorem test_hyp_SeekDropsOldestBytes : fullState.Inv ∧ (300#16).toNat ≤ fullState.block.len := by decide +kernel
theorem test_hyp_RxFollowsScanRules : fullState.Inv ∧ frameS.length ≤ 65535 := by decide +kernel
/-- 255 bytes held: one more starts the scan, none does not. -/
theorem test_hyp_RxTerminatesAndCountsBytes :
    (holding 300 150 (zeros 255)).Inv ∧ (holding 300 150 (zeros 255)).block.len + min ([] : List Byte).length 45 < 256
      ∧ 256 ≤ (holding 300 150 (zeros 255)).block.len + min [1#8].length 45 := by decide +kernel
theorem test_hyp_RxOfOneFrameDispatchesIt :
    (holding 256 77 []).Inv ∧ (holding 256 77 []).block.len = 0 ∧ ValidFrame frameS := by decide +kernel
/-- A frame in two pieces that fill a FIFO of 256 bytes, with commands between them. -/
theorem test_hyp_FragmentationChangesNothing :
    (holding 256 77 []).Inv
      ∧ (holding 256 77 []).block.len + (frameS.take 100 ++ frameS.drop 100).length
          ≤ (holding 256 77 []).block.capacity
      ∧ ∀ i ∈ [Instr.status, .wrctrl true true true], QuietFor (holding 256 77 []).block.ctrl i = true := by
  decide +kernel
/-- The longest chunk that can never overflow, into 255 bytes held. -/
theorem test_hyp_RxDropsNothingWithinRoom :
    (holding 300 150 (zeros 255)).Inv ∧ (holding 300 150 (zeros 255)).block.len ≤ 255
      ∧ (zeros 45).length ≤ (holding 300 150 (zeros 255)).block.capacity - 256 + 1
      ∧ (∀ d, Instr.rx (zeros 45) ≠ .push d)
      ∧ ∃ t r, exec (.rx (zeros 45)) (holding 300 150 (zeros 255)) = .next t
          ∧ (holding 300 150 (zeros 255)).Returned t r :=
  ⟨by decide +kernel, by decide +kernel, by decide +kernel, nofun, exec_returns _ _⟩
/-- S with each of its two checksum bytes changed, and the GenericIO frame. -/
theorem test_hyp_ResyncSkipsCorruptFrame :
    (holding 512 77 []).Inv ∧ (holding 512 77 []).block.len = 0 ∧ 512 ≤ (holding 512 77 []).block.capacity
      ∧ ValidFrame frameS ∧ 0x20#8 ≠ byteAt frameS 253 ∧ 0xD6#8 ≠ byteAt frameS 254
      ∧ ValidFrame frameIo ∧ 0#8 ≠ byteAt frameIo 253 := by decide +kernel
theorem test_hyp_ResyncSkipsCorruptFrame_windows (o : Nat) (h1 : 1 ≤ o) (h2 : o ≤ 255) :
    ¬ ValidFrame (slice (frameS.set 253 0x20#8 ++ frameS) o (o + 256)) := by
  have key : ∀ k, k < 256 → k ≠ 0 → byteAt (slice (frameS.set 253 0x20#8 ++ frameS) k (k + 256)) 0 ≠ 0x55#8 := by
    decide +kernel
  exact fun hv => key o (by omega) (by omega) hv.2.1.1
theorem test_hyp_EventsAreLegalRecords :
    ∃ t r, exec (.rx frameS) (holding 256 77 []) = .next t ∧ (holding 256 77 []).Returned t r := exec_returns _ _

end Sys2Proof.Machine.Test
end

section
/-! PROOFS. What a command and a step can do to the block, said once, and the whole invariant of the block along every
step (00_scope R8, 10_state R32, 42_fifo R129, entry 4). -/

namespace Sys2Proof.Machine

/-! ### The primitives and the scan -/

theorem Block.cursorsOk_fifoPush {b : Block} (d : List Byte) (h : b.CursorsOk) : (b.fifoPush d).CursorsOk := by
  obtain ⟨hlen, hhead, htail⟩ := h
  have hroom := b.accepts_le_room d
  refine ⟨by simp; omega, hhead, ?_⟩
  simp [htail, Nat.add_assoc]

/-- A FIFO with HEAD, TAIL and LEN 0 meets the invariants of 42_fifo R129, as there is a byte of room. -/
theorem Block.cursorsOk_of_zero {b : Block} (hc : 0 < b.capacity) (hhead : b.head = 0) (htail : b.tail = 0)
    (hlen : b.len = 0) : b.CursorsOk :=
  ⟨by omega, by omega, by simp [hhead, htail, hlen]⟩

theorem Block.capacity_pos_of_cursorsOk {b : Block} (h : b.CursorsOk) : 0 < b.capacity := Nat.zero_lt_of_lt h.2.1

theorem Block.cursorsOk_fifoFlush {b : Block} (h : b.CursorsOk) : b.fifoFlush.CursorsOk :=
  Block.cursorsOk_of_zero (b := b.fifoFlush) (Block.capacity_pos_of_cursorsOk (b := b) h) rfl rfl rfl

theorem Block.cursorsOk_resetAction {b : Block} (h : b.CursorsOk) : b.resetAction.CursorsOk :=
  Block.cursorsOk_of_zero (b := b.resetAction) (Block.capacity_pos_of_cursorsOk (b := b) h) rfl rfl rfl

@[simp] theorem scan_capacity (s : State) : (scan s).state.block.capacity = s.block.capacity := by
  rw [(scan_frame s).1]

@[simp] theorem scan_mem (s : State) : (scan s).state.block.mem = s.block.mem := by
  rw [(scan_frame s).1]

/-! ### Commands -/

/-- What a command can do to the block: one case for each command that writes its state, and nothing by any other. -/
theorem exec_block_cases {i : Instr} {s t : State} (h : exec i s = .next t) :
    t.block = s.block
    ∨ (∃ d, i = .push d ∧ t.block = s.block.fifoPush d)
    ∨ (∃ n, i = .seek n ∧ n.toNat ≤ s.block.len ∧ t.block = s.block.fifoSeek n.toNat)
    ∨ (i = .flush ∧ t.block = s.block.fifoFlush)
    ∨ (∃ d, i = .rx d ∧ t.block = (scan (s.withBlock (s.block.fifoPush d))).state.block)
    ∨ (∃ a b c, i = .wrctrl a b c
        ∧ t.block = { s.block with ctrl := ⟨a, b⟩, ovf := ovfAfterWrctrl c s.block.ovf }) := by
  cases i with
  | nop => cases h; exact .inl rfl
  | cksum din => cases h; exact .inl rfl
  | encode id ty din =>
    cases he : encodeFrame (id.setWidth 8) (ty.setWidth 8) din with
    | none => rw [exec_encode_none s he] at h; cases h; exact .inl rfl
    | some fr => rw [exec_encode_some s he] at h; cases h; exact .inl rfl
  | decode din =>
    cases hv : s.verdict din with
    | invalid r => rw [exec_decode_invalid hv] at h; cases h; exact .inl rfl
    | ok m => rw [exec_decode_ok hv] at h; cases h; exact .inl rfl
  | push din => cases h; exact .inr (.inl ⟨din, rfl, rfl⟩)
  | status => cases h; exact .inl rfl
  | peek cnt =>
    by_cases hn : cnt.toNat ≤ s.block.len
    · rw [exec_peek_ok hn] at h; cases h; exact .inl rfl
    · rw [exec_peek_underflow (by omega)] at h; cases h; exact .inl rfl
  | seek cnt =>
    by_cases hn : cnt.toNat ≤ s.block.len
    · rw [exec_seek_ok hn] at h; cases h; exact .inr (.inr (.inl ⟨cnt, rfl, hn, rfl⟩))
    · rw [exec_seek_underflow (by omega)] at h; cases h; exact .inl rfl
  | flush => cases h; exact .inr (.inr (.inr (.inl ⟨rfl, rfl⟩)))
  | rx din => cases h; exact .inr (.inr (.inr (.inr (.inl ⟨din, rfl, rfl⟩))))
  | wrctrl a b c => cases h; exact .inr (.inr (.inr (.inr (.inr ⟨a, b, c, rfl, rfl⟩))))

/-- No command writes C (10_state R32). -/
theorem exec_capacity {i : Instr} {s t : State} (h : exec i s = .next t) : t.block.capacity = s.block.capacity := by
  rcases exec_block_cases h with hb | ⟨d, -, hb⟩ | ⟨n, -, -, hb⟩ | ⟨-, hb⟩ | ⟨d, -, hb⟩ | ⟨a, b, c, -, hb⟩ <;> simp [hb]

/-- Every command keeps the three invariants of 42_fifo R129. -/
theorem exec_cursorsOk {i : Instr} {s t : State} (hs : s.block.CursorsOk) (h : exec i s = .next t) :
    t.block.CursorsOk := by
  rcases exec_block_cases h with hb | ⟨d, -, hb⟩ | ⟨n, -, hn, hb⟩ | ⟨-, hb⟩ | ⟨d, -, hb⟩ | ⟨a, b, c, -, hb⟩ <;> rw [hb]
  · exact hs
  · exact Block.cursorsOk_fifoPush d hs
  · exact Block.cursorsOk_fifoSeek hs hn
  · exact Block.cursorsOk_fifoFlush hs
  · exact scan_cursorsOk _ (Block.cursorsOk_fifoPush d hs)
  · exact hs

/-- Every command keeps the model's form of MEM (entry 4). -/
theorem exec_memoryOk {i : Instr} {s t : State} (hc : 0 < s.block.capacity) (hs : s.block.MemoryOk)
    (h : exec i s = .next t) : t.block.MemoryOk := by
  rcases exec_block_cases h with hb | ⟨d, -, hb⟩ | ⟨n, -, -, hb⟩ | ⟨-, hb⟩ | ⟨d, -, hb⟩ | ⟨a, b, c, -, hb⟩ <;> rw [hb]
  · exact hs
  · exact Block.memoryOk_fifoPush d hc hs
  · exact hs
  · exact hs
  · have hp : (s.block.fifoPush d).MemoryOk := Block.memoryOk_fifoPush d hc hs
    rw [Block.MemoryOk, scan_mem, scan_capacity]
    exact hp
  · exact hs

/-! ### Steps -/

/-- What a step can do to the block: nothing (no input, or a transaction answered ILLEGAL), the reset action, or what a
command does from the same block. -/
theorem step_block_cases {s t : State} (h : step s = .next t) :
    t.block = s.block ∨ t.block = s.block.resetAction ∨ ∃ i u, u.block = s.block ∧ exec i u = .next t := by
  cases hp : s.pending with
  | nil => rw [step_idle hp] at h; cases h; exact .inl rfl
  | cons input rest =>
    cases input with
    | reset => rw [step_reset hp] at h; cases h; exact .inr (.inl rfl)
    | transaction x =>
      rw [step_transaction hp] at h
      cases hd : decode x with
      | error e => rw [performTransaction_error _ hd] at h; cases h; exact .inl rfl
      | ok i => rw [performTransaction_ok _ hd] at h; exact .inr (.inr ⟨i, { s with pending := rest }, rfl, h⟩)

/-- A property of the block that the reset action and every command keep is kept by every step. -/
theorem step_keeps {P : Block → Prop} (reset : ∀ b, P b → P b.resetAction)
    (command : ∀ i s t, P s.block → exec i s = .next t → P t.block) {s t : State} (hs : P s.block)
    (h : step s = .next t) : P t.block := by
  rcases step_block_cases h with hb | hb | ⟨i, u, hu, he⟩
  · rw [hb]; exact hs
  · rw [hb]; exact reset _ hs
  · exact command i u t (by rw [hu]; exact hs) he

/-- No step writes C (10_state R32). -/
theorem step_capacity {s t : State} (h : step s = .next t) : t.block.capacity = s.block.capacity :=
  step_keeps (P := fun b => b.capacity = s.block.capacity) (fun _ hb => hb)
    (fun _ _ _ hu he => (exec_capacity he).trans hu) rfl h

theorem step_cursorsOk {s t : State} (hs : s.block.CursorsOk) (h : step s = .next t) : t.block.CursorsOk :=
  step_keeps (P := Block.CursorsOk) (fun _ => Block.cursorsOk_resetAction) (fun _ _ _ => exec_cursorsOk) hs h

theorem step_memoryOk {s t : State} (hc : 0 < s.block.capacity) (hs : s.block.MemoryOk) (h : step s = .next t) :
    t.block.MemoryOk :=
  (step_keeps (P := fun b => 0 < b.capacity ∧ b.MemoryOk) (fun _ hb => hb)
    (fun _ _ _ hu he => ⟨(exec_capacity he).symm ▸ hu.1, exec_memoryOk hu.1 hu.2 he⟩) ⟨hc, hs⟩ h).2

/-- Settles O15: each of the three parts of the invariant is kept by every step, the range of C because C is. -/
theorem stepKeepsInvariant : Obligations.StepKeepsInvariant := by
  unfold Obligations.StepKeepsInvariant
  rintro s t ⟨hcapacity, hcursors, hmemory⟩ h
  have hC := step_capacity h
  refine ⟨⟨?_, step_cursorsOk hcursors h,
    step_memoryOk (Block.capacity_pos_of_cursorsOk hcursors) hmemory h⟩, hC⟩
  rw [Block.CapacityOk, hC]
  exact hcapacity

end Sys2Proof.Machine
end

section
/-! PROOFS. The reset state, the registers of the block and MEM: which commands may write each of them (10_state R23, R29,
R30, R32, R34, 42_fifo R129). -/

namespace Sys2Proof.Machine

/-- Settles O1, from the range of the OPEN capacity and the cursors, all 0. -/
theorem resetMeetsInvariant : Obligations.ResetMeetsInvariant := by
  unfold Obligations.ResetMeetsInvariant
  have hC : State.reset.block.CapacityOk := configCapacity_bounds
  have hpos : 0 < State.reset.block.capacity := Nat.lt_of_lt_of_le (by decide) hC.1
  exact ⟨hC, Block.cursorsOk_of_zero hpos rfl rfl rfl, rfl, nofun⟩

/-! ### Registers a scan leaves alone -/

@[simp] theorem scan_ctrl (s : State) : (scan s).state.block.ctrl = s.block.ctrl := by
  rw [(scan_frame s).1]

@[simp] theorem scan_tail (s : State) : (scan s).state.block.tail = s.block.tail := by
  rw [(scan_frame s).1]

@[simp] theorem scan_ovf (s : State) : (scan s).state.block.ovf = s.block.ovf := by
  rw [(scan_frame s).1]

/-! ### Registers a command leaves alone -/

section
variable {i : Instr} {s t : State}

theorem exec_mem (h : exec i s = .next t) (hpush : ∀ d, i ≠ .push d) (hrx : ∀ d, i ≠ .rx d) :
    t.block.mem = s.block.mem := by
  rcases exec_block_cases h with hb | ⟨d, hi, -⟩ | ⟨n, -, -, hb⟩ | ⟨-, hb⟩ | ⟨d, hi, -⟩ | ⟨a, b, c, -, hb⟩
  · rw [hb]
  · exact absurd hi (hpush d)
  · rw [hb, Block.fifoSeek_mem]
  · rw [hb, Block.fifoFlush_mem]
  · exact absurd hi (hrx d)
  · rw [hb]

theorem exec_ctrl (h : exec i s = .next t) (hwrctrl : ∀ a b c, i ≠ .wrctrl a b c) :
    t.block.ctrl = s.block.ctrl := by
  rcases exec_block_cases h with hb | ⟨d, -, hb⟩ | ⟨n, -, -, hb⟩ | ⟨-, hb⟩ | ⟨d, -, hb⟩ | ⟨a, b, c, hi, -⟩
  · rw [hb]
  · rw [hb, Block.fifoPush_ctrl]
  · rw [hb, Block.fifoSeek_ctrl]
  · rw [hb, Block.fifoFlush_ctrl]
  · rw [hb, scan_ctrl, State.withBlock_block, Block.fifoPush_ctrl]
  · exact absurd hi (hwrctrl a b c)

theorem exec_tail (h : exec i s = .next t) (hpush : ∀ d, i ≠ .push d) (hrx : ∀ d, i ≠ .rx d) (hflush : i ≠ .flush) :
    t.block.tail = s.block.tail := by
  rcases exec_block_cases h with hb | ⟨d, hi, -⟩ | ⟨n, -, -, hb⟩ | ⟨hi, -⟩ | ⟨d, hi, -⟩ | ⟨a, b, c, -, hb⟩
  · rw [hb]
  · exact absurd hi (hpush d)
  · rw [hb, Block.fifoSeek_tail]
  · exact absurd hi hflush
  · exact absurd hi (hrx d)
  · rw [hb]

theorem exec_head (h : exec i s = .next t) (hseek : ∀ n, i ≠ .seek n) (hrx : ∀ d, i ≠ .rx d) (hflush : i ≠ .flush) :
    t.block.head = s.block.head := by
  rcases exec_block_cases h with hb | ⟨d, -, hb⟩ | ⟨n, hi, -, -⟩ | ⟨hi, -⟩ | ⟨d, hi, -⟩ | ⟨a, b, c, -, hb⟩
  · rw [hb]
  · rw [hb, Block.fifoPush_head]
  · exact absurd hi (hseek n)
  · exact absurd hi hflush
  · exact absurd hi (hrx d)
  · rw [hb]

theorem exec_len (h : exec i s = .next t) (hseek : ∀ n, i ≠ .seek n) (hpush : ∀ d, i ≠ .push d)
    (hrx : ∀ d, i ≠ .rx d) (hflush : i ≠ .flush) : t.block.len = s.block.len := by
  rcases exec_block_cases h with hb | ⟨d, hi, -⟩ | ⟨n, hi, -, -⟩ | ⟨hi, -⟩ | ⟨d, hi, -⟩ | ⟨a, b, c, -, hb⟩
  · rw [hb]
  · exact absurd hi (hpush d)
  · exact absurd hi (hseek n)
  · exact absurd hi hflush
  · exact absurd hi (hrx d)
  · rw [hb]

theorem exec_ovf (h : exec i s = .next t) (hpush : ∀ d, i ≠ .push d) (hrx : ∀ d, i ≠ .rx d) (hflush : i ≠ .flush)
    (hwrctrl : ∀ a b c, i ≠ .wrctrl a b c) : t.block.ovf = s.block.ovf := by
  rcases exec_block_cases h with hb | ⟨d, hi, -⟩ | ⟨n, -, -, hb⟩ | ⟨hi, -⟩ | ⟨d, hi, -⟩ | ⟨a, b, c, hi, -⟩
  · rw [hb]
  · exact absurd hi (hpush d)
  · rw [hb, Block.fifoSeek_ovf]
  · exact absurd hi hflush
  · exact absurd hi (hrx d)
  · exact absurd hi (hwrctrl a b c)

end

/-- Settles O17: no other command writes MEM at all. -/
theorem onlyPushAndRxWriteMemory : Obligations.OnlyPushAndRxWriteMemory := by
  unfold Obligations.OnlyPushAndRxWriteMemory
  intro i s t hpush hrx h a
  rw [exec_mem h hpush hrx]

/-- Settles O18, one register after another. -/
theorem registersChangeOnlyByTheirCommands : Obligations.RegistersChangeOnlyByTheirCommands := by
  unfold Obligations.RegistersChangeOnlyByTheirCommands
  exact fun i s t h => ⟨exec_capacity h, exec_ctrl h, exec_tail h, exec_head h, exec_len h⟩

end Sys2Proof.Machine
end

section
/-! PROOFS. Instances (10_state R35, 60_exceptions R180) and the streams their free Booleans come from (00_scope R12,
entries 3 and 11). -/

namespace Sys2Proof.Machine

/-! ### A system -/

/-- What a step of machine `k` does to the system: nothing, or it puts the machine's next state in its place. -/
theorem System.stepInstance_cases (k : Nat) (sys : System) :
    System.stepInstance k sys = sys
    ∨ ∃ s t, sys[k]? = some s ∧ step s = .next t ∧ System.stepInstance k sys = sys.set k t := by
  unfold System.stepInstance
  cases hk : sys[k]? with
  | none => exact .inl rfl
  | some s =>
    cases hs : step s with
    | next t => exact .inr ⟨s, t, rfl, hs, by simp only [hs]⟩
    | fault _ => exact .inl (by simp only [hs])
    | refused _ => exact .inl (by simp only [hs])

theorem System.stepInstance_of_next {k : Nat} {sys : System} {s t : State} (hk : sys[k]? = some s)
    (hs : step s = .next t) : System.stepInstance k sys = sys.set k t := by
  simp only [System.stepInstance, hk, hs]

/-- Settles O6: a step writes one place of the list, its own. -/
theorem instancesShareNothing : Obligations.InstancesShareNothing := by
  unfold Obligations.InstancesShareNothing
  intro k sys
  constructor
  · intro j hj
    rcases System.stepInstance_cases k sys with he | ⟨s, t, -, -, he⟩
    · rw [he]
    · rw [he, List.getElem?_set_ne hj.symm]
  · intro s t hk hs
    obtain ⟨hlt, -⟩ := List.getElem?_eq_some_iff.mp hk
    rw [System.stepInstance_of_next hk hs, List.getElem?_set_self hlt]

theorem System.atReset_getElem? (capacities : List Nat) (k : Nat) :
    (System.atReset capacities)[k]? = capacities[k]?.map fun c => State.atReset c k := by
  rw [System.atReset, List.getElem?_mapIdx]

/-- After reset, machine `k` draws from stream `k`. -/
theorem System.drawStream_of_atReset {capacities : List Nat} {k : Nat} {s : State}
    (h : (System.atReset capacities)[k]? = some s) : s.drawStream = k := by
  rw [System.atReset_getElem?] at h
  obtain ⟨c, -, rfl⟩ := Option.map_eq_some_iff.mp h
  rfl

/-! ### The stream of free Booleans -/

/-- No command writes the stream's number. -/
theorem exec_drawStream {i : Instr} {s t : State} (h : exec i s = .next t) : t.drawStream = s.drawStream := by
  cases i with
  | nop => cases h; rfl
  | cksum din => cases h; rfl
  | encode id ty din =>
    cases he : encodeFrame (id.setWidth 8) (ty.setWidth 8) din with
    | none => rw [exec_encode_none s he] at h; cases h; rfl
    | some fr => rw [exec_encode_some s he] at h; cases h; rfl
  | decode din =>
    cases hv : s.verdict din with
    | invalid r => rw [exec_decode_invalid hv] at h; cases h; rfl
    | ok m => rw [exec_decode_ok hv] at h; cases h; rfl
  | push din => cases h; rfl
  | status => cases h; rfl
  | peek cnt =>
    by_cases hn : cnt.toNat ≤ s.block.len
    · rw [exec_peek_ok hn] at h; cases h; rfl
    · rw [exec_peek_underflow (by omega)] at h; cases h; rfl
  | seek cnt =>
    by_cases hn : cnt.toNat ≤ s.block.len
    · rw [exec_seek_ok hn] at h; cases h; rfl
    · rw [exec_seek_underflow (by omega)] at h; cases h; rfl
  | flush => cases h; rfl
  | rx din => cases h; exact scan_drawStream _
  | wrctrl a b c => cases h; rfl

/-- No step writes the stream's number. -/
theorem step_drawStream {s t : State} (h : step s = .next t) : t.drawStream = s.drawStream := by
  cases hp : s.pending with
  | nil => rw [step_idle hp] at h; cases h; rfl
  | cons input rest =>
    cases input with
    | reset => rw [step_reset hp] at h; cases h; rfl
    | transaction x =>
      rw [step_transaction hp] at h
      cases hd : decode x with
      | error e => rw [performTransaction_error _ hd] at h; cases h; rfl
      | ok i =>
        rw [performTransaction_ok _ hd] at h
        exact (exec_drawStream h :)

/-- No step of a system writes the number of any machine's stream. -/
theorem System.map_drawStream_stepInstance (k : Nat) (sys : System) :
    (System.stepInstance k sys).map State.drawStream = sys.map State.drawStream := by
  rcases System.stepInstance_cases k sys with he | ⟨s, t, hk, hs, he⟩
  · rw [he]
  · have hk' : (sys.map State.drawStream)[k]? = some t.drawStream := by
      rw [List.getElem?_map, hk, step_drawStream hs]; rfl
    obtain ⟨hlt, heq⟩ := List.getElem?_eq_some_iff.mp hk'
    rw [he, List.map_set, ← heq, List.set_getElem_self]

/-- Settles O53: machine `k` starts with stream `k`, and nothing writes the stream's number. -/
theorem instancesDrawFromTheirOwnStreams : Obligations.InstancesDrawFromTheirOwnStreams := by
  unfold Obligations.InstancesDrawFromTheirOwnStreams
  refine ⟨?_, ?_, fun i s t => exec_drawStream, fun s t => step_drawStream, System.map_drawStream_stepInstance⟩
  · intro capacities k c hk
    exact ⟨State.atReset c k, by rw [System.atReset_getElem?, hk]; rfl, rfl, rfl, rfl⟩
  · intro capacities j k a b hjk ha hb
    rwa [System.drawStream_of_atReset ha, System.drawStream_of_atReset hb]

end Sys2Proof.Machine
end

section
/-! PROOFS. What an observer cannot tell: machines whose blocks are related by a relation that the FIFO primitives keep and
no peek sees return the same. Taken with the same Q for all of 10_state R28, and with "the same but OVF" for the last part
of R29. -/

namespace Sys2Proof.Machine

/-! ### Related blocks and related machines -/

/-- A relation of blocks that agree on C, LEN, CTRL and every byte a peek within LEN reads, and that every write of a
command keeps. -/
structure FifoCongruence (R : Block → Block → Prop) : Prop where
  capacity : ∀ {a b}, R a b → a.capacity = b.capacity
  len : ∀ {a b}, R a b → a.len = b.len
  ctrl : ∀ {a b}, R a b → a.ctrl = b.ctrl
  peek : ∀ {a b} {n : Nat}, R a b → n ≤ a.len → a.fifoPeek n = b.fifoPeek n
  push : ∀ {a b} (d : List Byte), R a b → R (a.fifoPush d) (b.fifoPush d)
  seek : ∀ {a b} {n : Nat}, R a b → n ≤ a.len → R (a.fifoSeek n) (b.fifoSeek n)
  flush : ∀ {a b}, R a b → R a.fifoFlush b.fifoFlush
  wrctrl : ∀ {a b} (c : Ctrl) (clr : Bool), R a b →
    R { a with ctrl := c, ovf := ovfAfterWrctrl clr a.ovf } { b with ctrl := c, ovf := ovfAfterWrctrl clr b.ovf }

/-- Two machines with related blocks, and the same of all that stands around the block. -/
structure State.Alike (R : Block → Block → Prop) (s s' : State) : Prop where
  block : R s.block s'.block
  drawStream : s.drawStream = s'.drawStream
  draws : s.draws = s'.draws
  pending : s.pending = s'.pending
  results : s.results = s'.results

section
variable {R : Block → Block → Prop} {s s' : State}

theorem State.Alike.respond (h : s.Alike R s') (r : Result) : (s.respond r).Alike R (s'.respond r) :=
  { h with results := congrArg (· ++ [r]) h.results }

theorem State.Alike.withBlock (h : s.Alike R s') {b b' : Block} (hb : R b b') :
    (s.withBlock b).Alike R (s'.withBlock b') :=
  { h with block := hb }

theorem State.Alike.withPending (h : s.Alike R s') (rest : List HostInput) :
    ({ s with pending := rest } : State).Alike R { s' with pending := rest } :=
  { h with pending := rfl }

theorem State.Alike.afterDecode (h : s.Alike R s') (fr : List Byte) :
    (s.afterDecode fr).Alike R (s'.afterDecode fr) :=
  { h with draws := by rw [State.afterDecode_draws, State.afterDecode_draws, h.draws] }

theorem State.Alike.verdict_eq (h : s.Alike R s') (fr : List Byte) : s.verdict fr = s'.verdict fr := by
  rw [State.verdict, State.verdict, State.nextDraw, State.nextDraw, h.drawStream, h.draws]

theorem FifoCongruence.accepts_eq (hR : FifoCongruence R) {a b : Block} (h : R a b) (d : List Byte) :
    a.accepts d = b.accepts d := by
  rw [Block.accepts, Block.accepts, hR.capacity h, hR.len h]

theorem FifoCongruence.drops_eq (hR : FifoCongruence R) {a b : Block} (h : R a b) (d : List Byte) :
    a.drops d = b.drops d := by
  rw [Block.drops, Block.drops, hR.accepts_eq h]

/-! ### Scans and commands -/

/-- One iteration of the scan, with the candidate decoded and `n` bytes taken, on both machines. -/
theorem State.Alike.afterCandidate (hR : FifoCongruence R) (h : s.Alike R s') {n : Nat} (hn : n ≤ s.block.len)
    (hF : 256 ≤ s.block.len) :
    ((s.afterDecode (s.block.fifoPeek 256)).seek n).Alike R ((s'.afterDecode (s'.block.fifoPeek 256)).seek n) := by
  rw [← hR.peek h.block hF]
  exact (h.afterDecode _).withBlock (hR.seek h.block hn)

/-- Scans of alike machines end in alike machines, with the same counts and the same events. -/
theorem scan_alike (hR : FifoCongruence R) (s : State) : ∀ s' : State, s.Alike R s' →
    (scan s).state.Alike R (scan s').state ∧ (scan s).frames = (scan s').frames
      ∧ (scan s).skips = (scan s').skips ∧ (scan s).events = (scan s').events := by
  refine scan_induct (P := fun s r => ∀ s' : State, s.Alike R s' →
    r.state.Alike R (scan s').state ∧ r.frames = (scan s').frames
      ∧ r.skips = (scan s').skips ∧ r.events = (scan s').events) ?_ ?_ ?_ s
  · intro s hshort s' h
    rw [scan_short (s := s') (hR.len h.block ▸ hshort)]
    exact ⟨h, rfl, rfl, rfl⟩
  · intro s r hlong hv ih s' h
    have hv' : s'.verdict (s'.block.fifoPeek 256) = .invalid r := by
      rw [← hR.peek h.block hlong, ← h.verdict_eq, hv]
    obtain ⟨hstate, hframes, hskips, hevents⟩ := ih _ (h.afterCandidate hR (by omega) hlong)
    rw [scan_resync (s := s') (hR.len h.block ▸ hlong) hv']
    exact ⟨hstate, hframes, congrArg (· + 1) hskips, hevents⟩
  · intro s m hlong hv ih s' h
    have hv' : s'.verdict (s'.block.fifoPeek 256) = .ok m := by
      rw [← hR.peek h.block hlong, ← h.verdict_eq, hv]
    obtain ⟨hstate, hframes, hskips, hevents⟩ := ih _ (h.afterCandidate hR hlong hlong)
    rw [scan_accept (s := s') (hR.len h.block ▸ hlong) hv']
    refine ⟨?_, ?_, ?_, ?_⟩ <;> dsimp only
    · exact hstate
    · exact congrArg (· + 1) hframes
    · exact hskips
    · rw [hR.ctrl h.block, hevents]

/-- A command takes alike machines to alike machines, with the same result; STATUS shows OVF, so for it OVF must agree. -/
theorem exec_alike (hR : FifoCongruence R) (i : Instr) (h : s.Alike R s')
    (hovf : i = .status → s.block.ovf = s'.block.ovf) :
    ∃ t t', exec i s = .next t ∧ exec i s' = .next t' ∧ t.Alike R t' := by
  have hlen := hR.len h.block
  cases i with
  | nop => exact ⟨_, _, exec_nop s, exec_nop s', h.respond _⟩
  | cksum din => exact ⟨_, _, exec_cksum din s, exec_cksum din s', h.respond _⟩
  | encode id ty din =>
    cases he : encodeFrame (id.setWidth 8) (ty.setWidth 8) din with
    | none => exact ⟨_, _, exec_encode_none s he, exec_encode_none s' he, h.respond _⟩
    | some fr => exact ⟨_, _, exec_encode_some s he, exec_encode_some s' he, h.respond _⟩
  | decode din =>
    have hvv := h.verdict_eq din
    cases hv : s.verdict din with
    | invalid r =>
      exact ⟨_, _, exec_decode_invalid hv, exec_decode_invalid (hvv ▸ hv), (h.afterDecode din).respond _⟩
    | ok m => exact ⟨_, _, exec_decode_ok hv, exec_decode_ok (hvv ▸ hv), (h.afterDecode din).respond _⟩
  | push din =>
    refine ⟨_, _, exec_push din s, exec_push din s', ?_⟩
    rw [hR.drops_eq h.block, hR.accepts_eq h.block]
    exact (h.withBlock (hR.push din h.block)).respond _
  | status =>
    refine ⟨_, _, exec_status s, exec_status s', ?_⟩
    rw [hlen, hR.capacity h.block, hR.ctrl h.block, hovf rfl]
    exact h.respond _
  | peek cnt =>
    by_cases hn : cnt.toNat ≤ s.block.len
    · refine ⟨_, _, exec_peek_ok hn, exec_peek_ok (hlen ▸ hn), ?_⟩
      rw [hR.peek h.block hn]
      exact h.respond _
    · refine ⟨_, _, exec_peek_underflow (by omega), exec_peek_underflow (by omega), ?_⟩
      rw [hlen]
      exact h.respond _
  | seek cnt =>
    by_cases hn : cnt.toNat ≤ s.block.len
    · refine ⟨_, _, exec_seek_ok hn, exec_seek_ok (hlen ▸ hn), ?_⟩
      rw [hlen]
      exact (h.withBlock (hR.seek h.block hn)).respond _
    · refine ⟨_, _, exec_seek_underflow (by omega), exec_seek_underflow (by omega), ?_⟩
      rw [hlen]
      exact h.respond _
  | flush => exact ⟨_, _, exec_flush s, exec_flush s', (h.withBlock (hR.flush h.block)).respond _⟩
  | rx din =>
    obtain ⟨hstate, hframes, hskips, hevents⟩ := scan_alike hR _ _ (h.withBlock (hR.push din h.block))
    refine ⟨_, _, exec_rx din s, exec_rx din s', ?_⟩
    rw [hR.drops_eq h.block, hR.accepts_eq h.block, hframes, hskips, hevents]
    exact hstate.respond _
  | wrctrl a b c =>
    exact ⟨_, _, exec_wrctrl a b c s, exec_wrctrl a b c s', (h.withBlock (hR.wrctrl ⟨a, b⟩ c h.block)).respond _⟩

/-- A step takes alike machines to alike machines, when the relation has OVF agree and the reset action keeps it. -/
theorem step_alike (hR : FifoCongruence R) (hovf : ∀ a b, R a b → a.ovf = b.ovf)
    (hreset : ∀ a b, R a b → R a.resetAction b.resetAction) (h : s.Alike R s') :
    ∃ t t', step s = .next t ∧ step s' = .next t' ∧ t.Alike R t' := by
  cases hp : s.pending with
  | nil => exact ⟨s, s', step_idle hp, step_idle (h.pending ▸ hp), h⟩
  | cons input rest =>
    have hp' : s'.pending = input :: rest := h.pending ▸ hp
    have hrest := h.withPending rest
    cases input with
    | reset => exact ⟨_, _, step_reset hp, step_reset hp', hrest.withBlock (hreset _ _ h.block)⟩
    | transaction x =>
      rw [step_transaction hp, step_transaction hp']
      cases hd : decode x with
      | error e => exact ⟨_, _, performTransaction_error _ hd, performTransaction_error _ hd, hrest.respond _⟩
      | ok i =>
        rw [performTransaction_ok _ hd, performTransaction_ok _ hd]
        exact exec_alike hR i hrest fun _ => hovf _ _ h.block

theorem run_succ {k : Nat} (h : step s = .next s') :
    Host.Core.run Sys2Proof.core (k + 1) s = Host.Core.run Sys2Proof.core k s' := by
  have hcore : Sys2Proof.core.step s = .next s' := h
  simp only [Host.Core.run, hcore]

/-- What every step keeps of two machines, every run keeps. -/
theorem run_alike (hstep : ∀ s s' : State, s.Alike R s' → ∃ t t', step s = .next t ∧ step s' = .next t' ∧ t.Alike R t')
    (k : Nat) (h : s.Alike R s') :
    ∃ t t', Host.Core.run Sys2Proof.core k s = .next t ∧ Host.Core.run Sys2Proof.core k s' = .next t'
      ∧ t.Alike R t' := by
  induction k generalizing s s' with
  | zero => exact ⟨s, s', rfl, rfl, h⟩
  | succ k ih =>
    obtain ⟨t, t', ht, ht', halike⟩ := hstep s s' h
    rw [run_succ ht, run_succ ht']
    exact ih halike

end

/-! ### The same Q (10_state R28) -/

/-- What FifoPush needs of a block to append to Q. -/
def Block.QueueOk (b : Block) : Prop := b.CursorsOk ∧ b.mem.wf = true

/-- The same C, Q, OVF and CTRL, in two blocks that keep Q as 10_state R27 says. -/
def Block.SameQueue (a b : Block) : Prop := a.SameView b ∧ a.QueueOk ∧ b.QueueOk

theorem Block.SameView.len_eq {a b : Block} (h : a.SameView b) : a.len = b.len := by
  obtain ⟨-, hQ, -, -⟩ := h
  rw [← a.content_length, ← b.content_length, hQ]

theorem Block.queueOk_fifoPush {b : Block} (d : List Byte) (h : b.QueueOk) : (b.fifoPush d).QueueOk :=
  ⟨Block.cursorsOk_fifoPush d h.1, memWrite_wf _ _ h.2⟩

theorem Block.queueOk_fifoSeek {b : Block} {n : Nat} (h : b.QueueOk) (hn : n ≤ b.len) : (b.fifoSeek n).QueueOk :=
  ⟨Block.cursorsOk_fifoSeek h.1 hn, h.2⟩

theorem Block.queueOk_fifoFlush {b : Block} (h : b.QueueOk) : b.fifoFlush.QueueOk :=
  ⟨Block.cursorsOk_fifoFlush h.1, h.2⟩

theorem Block.queueOk_resetAction {b : Block} (h : b.QueueOk) : b.resetAction.QueueOk :=
  ⟨Block.cursorsOk_resetAction h.1, h.2⟩

theorem Block.content_resetAction (b : Block) : b.resetAction.content = [] := by simp [Block.content]

theorem Block.SameQueue.fifoPush {a b : Block} (d : List Byte) (h : a.SameQueue b) :
    (a.fifoPush d).SameQueue (b.fifoPush d) := by
  obtain ⟨hview, ha, hb⟩ := h
  have hlen := hview.len_eq
  obtain ⟨hC, hQ, hovf, hctrl⟩ := hview
  have hacc : a.accepts d = b.accepts d := by rw [Block.accepts, Block.accepts, hC, hlen]
  refine ⟨⟨hC, ?_, ?_, hctrl⟩, Block.queueOk_fifoPush d ha, Block.queueOk_fifoPush d hb⟩
  · rw [Block.content_fifoPush d ha.1 ha.2, Block.content_fifoPush d hb.1 hb.2, hQ, hacc]
  · rw [Block.fifoPush_ovf, Block.fifoPush_ovf, Block.drops, Block.drops, hacc, hovf]

theorem Block.SameQueue.fifoSeek {a b : Block} {n : Nat} (h : a.SameQueue b) (hn : n ≤ a.len) :
    (a.fifoSeek n).SameQueue (b.fifoSeek n) := by
  obtain ⟨hview, ha, hb⟩ := h
  have hn' : n ≤ b.len := hview.len_eq ▸ hn
  obtain ⟨hC, hQ, hovf, hctrl⟩ := hview
  exact ⟨⟨hC, by rw [Block.content_fifoSeek, Block.content_fifoSeek, hQ], hovf, hctrl⟩,
    Block.queueOk_fifoSeek ha hn, Block.queueOk_fifoSeek hb hn'⟩

theorem Block.SameQueue.fifoFlush {a b : Block} (h : a.SameQueue b) : a.fifoFlush.SameQueue b.fifoFlush := by
  obtain ⟨⟨hC, -, -, hctrl⟩, ha, hb⟩ := h
  exact ⟨⟨hC, by rw [Block.content_fifoFlush, Block.content_fifoFlush], rfl, hctrl⟩,
    Block.queueOk_fifoFlush ha, Block.queueOk_fifoFlush hb⟩

theorem Block.SameQueue.resetAction {a b : Block} (h : a.SameQueue b) : a.resetAction.SameQueue b.resetAction := by
  obtain ⟨⟨hC, -, -, -⟩, ha, hb⟩ := h
  exact ⟨⟨hC, by rw [Block.content_resetAction, Block.content_resetAction], rfl, rfl⟩,
    Block.queueOk_resetAction ha, Block.queueOk_resetAction hb⟩

theorem Block.SameQueue.fifoPeek_eq {a b : Block} {n : Nat} (h : a.SameQueue b) (hn : n ≤ a.len) :
    a.fifoPeek n = b.fifoPeek n := by
  obtain ⟨hview, -, -⟩ := h
  have hn' : n ≤ b.len := hview.len_eq ▸ hn
  obtain ⟨-, hQ, -, -⟩ := hview
  rw [Block.fifoPeek_eq hn, Block.fifoPeek_eq hn', hQ]

theorem Block.SameQueue.wrctrl {a b : Block} (c : Ctrl) (clr : Bool) (h : a.SameQueue b) :
    Block.SameQueue { a with ctrl := c, ovf := ovfAfterWrctrl clr a.ovf }
      { b with ctrl := c, ovf := ovfAfterWrctrl clr b.ovf } := by
  obtain ⟨⟨hC, hQ, hovf, -⟩, ha, hb⟩ := h
  exact ⟨⟨hC, hQ, congrArg (ovfAfterWrctrl clr) hovf, rfl⟩, ha, hb⟩

/-- Wherever Q stands in MEM, no primitive tells it. -/
theorem Block.sameQueue_congruence : FifoCongruence Block.SameQueue where
  capacity h := h.1.1
  len h := h.1.len_eq
  ctrl h := h.1.2.2.2
  peek := Block.SameQueue.fifoPeek_eq
  push := Block.SameQueue.fifoPush
  seek := Block.SameQueue.fifoSeek
  flush := Block.SameQueue.fifoFlush
  wrctrl := Block.SameQueue.wrctrl

theorem State.alike_of_sameView {s s' : State} (hs : s.Inv) (hs' : s'.Inv) (h : s.SameView s') :
    s.Alike Block.SameQueue s' := by
  obtain ⟨-, hcursors, hmem, -⟩ := hs
  obtain ⟨-, hcursors', hmem', -⟩ := hs'
  obtain ⟨hblock, ⟨hstream, hdraws⟩, hpending, hresults⟩ := h
  exact ⟨⟨hblock, ⟨hcursors, hmem⟩, ⟨hcursors', hmem'⟩⟩, hstream, hdraws, hpending, hresults⟩

theorem State.Alike.sameView {s s' : State} (h : s.Alike Block.SameQueue s') : s.SameView s' :=
  ⟨h.block.1, ⟨h.drawStream, h.draws⟩, h.pending, h.results⟩

/-- Settles O21: "the same Q" is kept by every step of both machines, so by every run, by induction on its length. -/
theorem sameQueueCannotBeToldApart : Obligations.SameQueueCannotBeToldApart := by
  unfold Obligations.SameQueueCannotBeToldApart
  intro k s s' hs hs' h
  have hstep : ∀ s s' : State, s.Alike Block.SameQueue s' →
      ∃ t t', step s = .next t ∧ step s' = .next t' ∧ t.Alike Block.SameQueue t' := fun _ _ =>
    step_alike Block.sameQueue_congruence (fun _ _ hab => hab.1.2.2.1) (fun _ _ => Block.SameQueue.resetAction)
  obtain ⟨t, t', ht, ht', halike⟩ := run_alike hstep k (State.alike_of_sameView hs hs' h)
  exact ⟨t, t', ht, ht', halike.sameView⟩

/-! ### The same but OVF (10_state R29) -/

/-- Two blocks that differ in OVF at most. -/
def Block.SameButOvf (a b : Block) : Prop := b = { a with ovf := b.ovf }

theorem Block.sameButOvf_iff {a b : Block} : a.SameButOvf b ↔ ∃ v, b = { a with ovf := v } :=
  ⟨fun h => ⟨_, h⟩, by rintro ⟨v, rfl⟩; rfl⟩

/-- No primitive reads OVF, but to carry it on. -/
theorem Block.sameButOvf_congruence : FifoCongruence Block.SameButOvf where
  capacity h := by rw [h]
  len h := by rw [h]
  ctrl h := by rw [h]
  peek h _ := by rw [h]; rfl
  push d h := by obtain ⟨v, rfl⟩ := Block.sameButOvf_iff.mp h; rfl
  seek h _ := by obtain ⟨v, rfl⟩ := Block.sameButOvf_iff.mp h; rfl
  flush h := by obtain ⟨v, rfl⟩ := Block.sameButOvf_iff.mp h; rfl
  wrctrl c clr h := by obtain ⟨v, rfl⟩ := Block.sameButOvf_iff.mp h; rfl

theorem State.alike_withOvf (s : State) (v : Bool) : s.Alike Block.SameButOvf (s.withBlock { s.block with ovf := v }) :=
  ⟨rfl, rfl, rfl, rfl, rfl⟩

/-- A push sets OVF exactly when the chunk is longer than the room there is (42_fifo R120). -/
theorem Block.fifoPush_ovf_eq (b : Block) (d : List Byte) :
    (b.fifoPush d).ovf = (b.ovf || decide (b.capacity - b.len < d.length)) := by
  rw [Block.fifoPush_ovf, ovfAfterPush_eq, Block.drops_eq]
  congr 1
  rw [decide_eq_decide]
  omega

/-- Settles O19: OVF after each command, from the lemma on the commands that keep it and the effects of the four others;
then the STATUS view, and the independence of the rest from OVF. -/
theorem overflowFlagIsSticky : Obligations.OverflowFlagIsSticky := by
  unfold Obligations.OverflowFlagIsSticky
  refine ⟨?_, fun s => rfl, ?_, ?_⟩
  · intro i s t h
    cases i with
    | push d => cases h; exact Block.fifoPush_ovf_eq _ d
    | rx d => cases h; exact (scan_ovf _).trans (Block.fifoPush_ovf_eq _ d)
    | flush => cases h; rfl
    | wrctrl a b c => cases h; exact ovfAfterWrctrl_eq c _
    | nop => exact exec_ovf h nofun nofun nofun nofun
    | cksum din => exact exec_ovf h nofun nofun nofun nofun
    | encode id ty din => exact exec_ovf h nofun nofun nofun nofun
    | decode din => exact exec_ovf h nofun nofun nofun nofun
    | status => exact exec_ovf h nofun nofun nofun nofun
    | peek cnt => exact exec_ovf h nofun nofun nofun nofun
    | seek cnt => exact exec_ovf h nofun nofun nofun nofun
  · exact fun s => ⟨_, _, exec_status s, ⟨rfl, rfl⟩, statusFlags_getLsbD _ _ 8⟩
  · intro i s v hi
    obtain ⟨t, u, ht, hu, halike⟩ :=
      exec_alike Block.sameButOvf_congruence i (s.alike_withOvf v) (fun h => absurd h hi)
    obtain ⟨t', r, ht', hresults, hpending⟩ := exec_returns i s
    obtain rfl : t = t' := Host.Outcome.next.inj (ht.symm.trans ht')
    exact ⟨t, u, r, ht, hu, ⟨hresults, hpending⟩, ⟨halike.results ▸ hresults, halike.pending ▸ hpending⟩,
      halike.block, halike.draws.symm⟩

end Sys2Proof.Machine
end

section
/-! PROOFS. The checksum as a bit-serial register (20_memory R43, 40_checksum R80): the register, XORed with the bits it
has still to take, moves by the rounds of the byte-wise checksum. -/

namespace Sys2Proof.Machine

/-- The `n` highest bits of a 16-bit value, the most significant first. -/
def highBits : Nat → Half → List Bool
  | 0, _ => []
  | n + 1, w => w.getLsbD 15 :: highBits n (w <<< 1)

/-- A byte's bits stand in the high byte, into which 40_checksum R80 XORs it. -/
theorem bitsMsbFirst_eq_highBits (b : Byte) : bitsMsbFirst b = highBits 8 (b.setWidth 16 <<< 8) := by
  simp [bitsMsbFirst, highBits]

/-- One round shifts register and waiting bits together: whether POLY goes in depends on the XOR of their bits 15 alone. -/
theorem crcBit_xor_shiftLeft (r w : Half) : crcBit r (w.getLsbD 15) ^^^ (w <<< 1) = crcRound (r ^^^ w) := by
  unfold crcBit crcRound
  rw [BitVec.getLsbD_xor, BitVec.shiftLeft_xor_distrib]
  split
  · ac_rfl
  · rfl

theorem foldl_crcBit_highBits (n : Nat) (r w : Half) :
    (highBits n w).foldl crcBit r ^^^ (w <<< n) = crcRounds n (r ^^^ w) := by
  induction n generalizing r w with
  | zero => simp [highBits, crcRounds]
  | succ n ih =>
    rw [highBits, List.foldl_cons, crcRounds_succ, ← crcBit_xor_shiftLeft, ← ih, ← BitVec.shiftLeft_add, Nat.add_comm]

/-- After its 8 bits nothing of a byte waits any more, so the register is the byte-wise one. -/
theorem foldl_crcBit_bitsMsbFirst (r : Half) (b : Byte) : (bitsMsbFirst b).foldl crcBit r = crcByte r b := by
  have hwait : (b.setWidth 16 <<< 8) <<< 8 = 0#16 := by
    rw [← BitVec.shiftLeft_add]
    exact BitVec.shiftLeft_eq_zero (le_refl 16)
  have hfold := foldl_crcBit_highBits 8 r (b.setWidth 16 <<< 8)
  rwa [hwait, BitVec.xor_zero, ← bitsMsbFirst_eq_highBits] at hfold

/-- Settles O26: both registers start at INIT and agree after every byte. -/
theorem checksumIsBitSerial : Obligations.ChecksumIsBitSerial := by
  unfold Obligations.ChecksumIsBitSerial
  intro data
  rw [checksumBits, List.foldl_flatMap]
  simp only [foldl_crcBit_bitsMsbFirst]
  rfl

end Sys2Proof.Machine
end

section
/-! PROOFS. The commands that write no state of the block (20_memory R48): their result is a function of the block, but
where DECODE takes a free draw (41_frame_codec R95). -/

namespace Sys2Proof.Machine

/-- No command of 20_memory R48 is among those that write the block. -/
theorem exec_block_of_readsOnly {i : Instr} {s t : State} (hi : ReadsOnly i = true) (h : exec i s = .next t) :
    t.block = s.block := by
  rcases exec_block_cases h with hb | ⟨d, rfl, -⟩ | ⟨n, rfl, -, -⟩ | ⟨rfl, -⟩ | ⟨d, rfl, -⟩ | ⟨a, b, c, rfl, -⟩
  · exact hb
  all_goals exact absurd hi Bool.false_ne_true

/-- A draw that Decode does not reach does not matter to its verdict. -/
theorem decodeFrame_eq_of_no_draw {fr : List Byte} (h : drawsChecksum fr = false) (draw draw' : Bool) :
    decodeFrame draw fr = decodeFrame draw' fr := by
  by_cases hm : markersOk fr = true
  · have hin : windowInside fr = true := by simpa [drawsChecksum, hm] using h
    simp only [decodeFrame, hin, if_true]
  · simp only [decodeFrame, hm, if_false, Bool.false_eq_true]

/-- A frame whose window lies inside it takes no draw (41_frame_codec R95). -/
theorem drawsChecksum_eq_false_of_length_le {fr : List Byte} (h : (frameLength fr).toNat ≤ 251) :
    drawsChecksum fr = false := by
  rw [Bool.eq_false_iff, ne_eq, drawsChecksum_iff]
  omega

/-- A DECODE that takes no draw does nothing but answer, and answers the same on every machine. -/
theorem exec_decode_of_no_draw {din : List Byte} (h : drawsChecksum din = false) :
    ∃ r, ∀ s : State, exec (.decode din) s = .next (s.respond r) := by
  have hafter (s : State) : s.afterDecode din = s := by rw [State.afterDecode, h, State.afterDraw_false]
  have hverdict (s : State) : s.verdict din = decodeFrame false din := decodeFrame_eq_of_no_draw h _ _
  cases hv : decodeFrame false din with
  | invalid r =>
    exact ⟨_, fun s => by rw [exec_decode_invalid ((hverdict s).trans hv), hafter]⟩
  | ok m =>
    exact ⟨_, fun s => by rw [exec_decode_ok ((hverdict s).trans hv), hafter]⟩

/-- A command that writes no state and takes no draw does nothing but answer, and answers the same on every machine with
the same block. -/
theorem exec_readsOnly_of_no_draw {i : Instr} (hi : ReadsOnly i = true)
    (hdraw : ∀ fr, i = .decode fr → drawsChecksum fr = false) (b : Block) :
    ∃ r, ∀ s : State, s.block = b → exec i s = .next (s.respond r) := by
  cases i with
  | nop => exact ⟨_, fun s _ => exec_nop s⟩
  | cksum din => exact ⟨_, fun s _ => exec_cksum din s⟩
  | encode id ty din =>
    cases he : encodeFrame (id.setWidth 8) (ty.setWidth 8) din with
    | none => exact ⟨_, fun s _ => exec_encode_none s he⟩
    | some fr => exact ⟨_, fun s _ => exec_encode_some s he⟩
  | decode din =>
    obtain ⟨r, hr⟩ := exec_decode_of_no_draw (hdraw din rfl)
    exact ⟨r, fun s _ => hr s⟩
  | status => exact ⟨_, fun s hb => hb ▸ exec_status s⟩
  | peek cnt =>
    rcases Nat.lt_or_ge b.len cnt.toNat with hn | hn
    · exact ⟨_, fun s hb => by rw [← hb] at hn; rw [exec_peek_underflow hn, hb]⟩
    · exact ⟨_, fun s hb => by rw [← hb] at hn; rw [exec_peek_ok hn, hb]⟩
  | push _ | seek _ | flush | rx _ | wrctrl _ _ _ => exact absurd hi Bool.false_ne_true

/-- Settles O16: without a draw both runs answer what the block determines; with one, the block is still left as it was. -/
theorem readOnlyCommandsAreIdempotent : Obligations.ReadOnlyCommandsAreIdempotent := by
  unfold Obligations.ReadOnlyCommandsAreIdempotent
  intro i s hi
  by_cases hlen : ∀ fr, i = .decode fr → (frameLength fr).toNat ≤ 251
  · obtain ⟨r, hr⟩ :=
      exec_readsOnly_of_no_draw hi (fun fr h => drawsChecksum_eq_false_of_length_le (hlen fr h)) s.block
    exact ⟨_, _, r, r, hr s rfl, hr (s.respond r) rfl, ⟨rfl, rfl⟩, ⟨rfl, rfl⟩, rfl, rfl, fun _ => ⟨rfl, rfl⟩⟩
  · obtain ⟨t, r, ht, hreturned⟩ := exec_returns i s
    obtain ⟨u, r', hu, hreturned'⟩ := exec_returns i t
    have htb := exec_block_of_readsOnly hi ht
    have hub := exec_block_of_readsOnly hi hu
    exact ⟨t, u, r, r', ht, hu, hreturned, hreturned', htb, hub.trans htb, fun h => absurd h hlen⟩

end Sys2Proof.Machine
end

section
/-! PROOFS. The decoder and the encoder (30_encoding R62 to R65, R76, R77): the row a word matches, the fields of a word
that matches it, and the two directions between commands and their transactions. -/

namespace Sys2Proof

/-! ### The rows of the opcode map -/

/-- The row of the opcode map that names an operation (30_encoding R62). -/
def Op.row : Op → OpcodeRow
  | .nop => ⟨.nop, 0x00000000#32, 0xFFFFFFFF#32⟩
  | .cksum => ⟨.cksum, 0x00000001#32, 0xFF0000FF#32⟩
  | .encode => ⟨.encode, 0x00000002#32, 0xFF00000F#32⟩
  | .decode => ⟨.decode, 0x00000003#32, 0xFFFFFFFF#32⟩
  | .push => ⟨.push, 0x00000004#32, 0xFF0000FF#32⟩
  | .status => ⟨.status, 0x00000005#32, 0xFFFFFFFF#32⟩
  | .peek => ⟨.peek, 0x00000006#32, 0xFF0000FF#32⟩
  | .seek => ⟨.seek, 0x00000007#32, 0xFF0000FF#32⟩
  | .flush => ⟨.flush, 0x00000008#32, 0xFFFFFFFF#32⟩
  | .rx => ⟨.rx, 0x00000009#32, 0xFF0000FF#32⟩
  | .wrctrl => ⟨.wrctrl, 0x0000000A#32, 0xFFFFF8FF#32⟩

theorem Op.row_mem (op : Op) : op.row ∈ opcodeRows := by cases op <;> decide

@[simp] theorem Op.row_op (op : Op) : op.row.op = op := by cases op <;> rfl

/-- Every row of the map is the row of its operation. -/
theorem Op.row_of_mem : ∀ r ∈ opcodeRows, r.op.row = r := by decide

/-- A word names an operation exactly when it matches that operation's row (30_encoding R62). -/
theorem opOf_eq_some_iff (cmd : Word) (op : Op) : opOf cmd = some op ↔ cmd &&& op.row.mask = op.row.value := by
  constructor
  · intro h
    obtain ⟨r, hfind, rfl⟩ := Option.map_eq_some_iff.mp h
    rw [Op.row_of_mem r (List.mem_of_find?_eq_some hfind)]
    simpa [OpcodeRow.matchesWord] using List.find?_some hfind
  · intro h
    simpa using opOf_eq_of_matches op.row_mem h

/-! ### The decoder -/

/-- What a legal transaction is: its word names an operation, and it has as many data-in bytes as that operation takes
(44_control R162 to R164). -/
theorem decode_eq_ok_iff {t : Transaction} {i : Instr} :
    decode t = .ok i ↔ ∃ op, opOf t.cmd = some op ∧ t.din.length = op.dataLength t.cmd ∧ op.instr t = i := by
  cases hop : opOf t.cmd with
  | none => simp [decode, hop]
  | some op => by_cases hlen : t.din.length = op.dataLength t.cmd <;> simp [decode, hop, hlen]

/-- A word that names no operation is refused whatever its data-in bytes are (44_control R162, R164). -/
theorem decode_of_opOf_eq_none {t : Transaction} (h : opOf t.cmd = none) : decode t = .error .commandWord := by
  simp [decode, h]

/-! ### The fields of a command word -/

theorem idField_commandWord (op : BitVec 4) (id ty : BitVec 2) (cnt : Half) :
    idField (commandWord op id ty cnt) = id := by
  apply BitVec.eq_of_getLsbD_eq
  intro i hi
  rw [idField, BitVec.getLsbD_extractLsb', commandWord_getLsbD]
  simp [hi, show 4 + i < 6 by omega]

theorem tyField_commandWord (op : BitVec 4) (id ty : BitVec 2) (cnt : Half) :
    tyField (commandWord op id ty cnt) = ty := by
  apply BitVec.eq_of_getLsbD_eq
  intro i hi
  rw [tyField, BitVec.getLsbD_extractLsb', commandWord_getLsbD]
  simp [hi, show ¬ 6 + i < 4 by omega, show 6 + i < 8 by omega]

/-- CNT = CMD[23:8] as a number (30_encoding R61). -/
theorem cntField_toNat (cmd : Word) : (cntField cmd).toNat = (cmd.toNat / 256) % 65536 := by
  simp [cntField, BitVec.extractLsb'_toNat, Nat.shiftRight_eq_div_pow]

/-- The number of data-in bytes each operation takes (30_encoding R62, the column E(CMD)). -/
theorem Op.dataLength_eq (cmd : Word) (op : Op) :
    op.dataLength cmd =
      if op = .cksum ∨ op = .encode ∨ op = .push ∨ op = .rx then (cmd.toNat / 256) % 65536
      else if op = .decode then 256 else 0 := by
  cases op <;> simp [Op.dataLength, cntField_toNat]

/-! ### A word is determined by its row and its fields -/

theorem getLsbD_eq_of_and_eq {a b m : Word} {i : Nat} (h : a &&& m = b &&& m) (hm : m.getLsbD i = true) :
    a.getLsbD i = b.getLsbD i := by
  simpa [hm] using congrArg (BitVec.getLsbD · i) h

theorem getLsbD_eq_of_extractLsb'_eq {a b : Word} {start len i : Nat}
    (h : a.extractLsb' start len = b.extractLsb' start len) (hlo : start ≤ i) (hhi : i < start + len) :
    a.getLsbD i = b.getLsbD i := by
  simpa [show i - start < len by omega, show start + (i - start) = i by omega]
    using congrArg (BitVec.getLsbD · (i - start)) h

/-- The mask of the rows that read CNT alone covers every bit outside CNT. -/
theorem cntMask_getLsbD : ∀ i < 32, ¬ (8 ≤ i ∧ i < 24) → (0xFF0000FF#32).getLsbD i = true := by decide

/-- ENCODE's mask covers every bit outside ID, TY and CNT. -/
theorem encodeMask_getLsbD : ∀ i < 32, ¬ (4 ≤ i ∧ i < 24) → (0xFF00000F#32).getLsbD i = true := by decide

/-- WRCTRL's mask covers every bit but its three write bits. -/
theorem wrctrlMask_getLsbD : ∀ i < 32, i ≠ 8 → i ≠ 9 → i ≠ 10 → (0xFFFFF8FF#32).getLsbD i = true := by decide

theorem word_eq_of_cntMask {a b : Word} (hmask : a &&& 0xFF0000FF#32 = b &&& 0xFF0000FF#32)
    (hcnt : cntField a = cntField b) : a = b := by
  apply BitVec.eq_of_getLsbD_eq
  intro i hi
  by_cases h : 8 ≤ i ∧ i < 24
  · exact getLsbD_eq_of_extractLsb'_eq hcnt h.1 h.2
  · exact getLsbD_eq_of_and_eq hmask (cntMask_getLsbD i hi h)

theorem word_eq_of_encodeMask {a b : Word} (hmask : a &&& 0xFF00000F#32 = b &&& 0xFF00000F#32)
    (hid : idField a = idField b) (hty : tyField a = tyField b) (hcnt : cntField a = cntField b) : a = b := by
  apply BitVec.eq_of_getLsbD_eq
  intro i hi
  by_cases h : 4 ≤ i ∧ i < 24
  · rcases Nat.lt_or_ge i 6 with h6 | h6
    · exact getLsbD_eq_of_extractLsb'_eq hid h.1 h6
    rcases Nat.lt_or_ge i 8 with h8 | h8
    · exact getLsbD_eq_of_extractLsb'_eq hty h6 h8
    · exact getLsbD_eq_of_extractLsb'_eq hcnt h8 h.2
  · exact getLsbD_eq_of_and_eq hmask (encodeMask_getLsbD i hi h)

theorem word_eq_of_wrctrlMask {a b : Word} (hmask : a &&& 0xFFFFF8FF#32 = b &&& 0xFFFFF8FF#32)
    (hslot : a.getLsbD 8 = b.getLsbD 8) (hio : a.getLsbD 9 = b.getLsbD 9) (hclr : a.getLsbD 10 = b.getLsbD 10) :
    a = b := by
  apply BitVec.eq_of_getLsbD_eq
  intro i hi
  by_cases h8 : i = 8
  · rw [h8, hslot]
  by_cases h9 : i = 9
  · rw [h9, hio]
  by_cases h10 : i = 10
  · rw [h10, hclr]
  · exact getLsbD_eq_of_and_eq hmask (wrctrlMask_getLsbD i hi h8 h9 h10)

/-- The three write bits of WRCTRL's word, and the rest of it (44_control R161). -/
theorem encode_wrctrl_bits (s e c : Bool) :
    (encode (.wrctrl s e c)).cmd &&& 0xFFFFF8FF#32 = 0xA#32
      ∧ (encode (.wrctrl s e c)).cmd.getLsbD 8 = s ∧ (encode (.wrctrl s e c)).cmd.getLsbD 9 = e
      ∧ (encode (.wrctrl s e c)).cmd.getLsbD 10 = c := by
  revert s e c
  decide

/-! ### From a command to its transaction and back -/

/-- Every well-formed command's transaction is legal for the command's own row. -/
theorem encodedWord (i : Instr) : Laws.EncodedWord.Statement i := by
  cases i with
  | nop => exact Laws.EncodedWord.nop
  | cksum din => exact Laws.EncodedWord.cksum din
  | encode id ty din => exact Laws.EncodedWord.encode id ty din
  | decode din => exact Laws.EncodedWord.decode din
  | push din => exact Laws.EncodedWord.push din
  | status => exact Laws.EncodedWord.status
  | peek cnt => exact Laws.EncodedWord.peek cnt
  | seek cnt => exact Laws.EncodedWord.seek cnt
  | flush => exact Laws.EncodedWord.flush
  | rx din => exact Laws.EncodedWord.rx din
  | wrctrl s e c => exact Laws.EncodedWord.wrctrl s e c

/-- The operands of a command are the fields of its transaction (30_encoding R65, R76). -/
theorem instr_encode (i : Instr) : i.op.instr (encode i) = i := by
  cases i with
  | encode id ty din => simp [Instr.op, Op.instr, encode, idField_commandWord, tyField_commandWord]
  | peek cnt => simp [Instr.op, Op.instr, encode, cntField_commandWord]
  | seek cnt => simp [Instr.op, Op.instr, encode, cntField_commandWord]
  | wrctrl s e c =>
    obtain ⟨-, hslot, hio, hclr⟩ := encode_wrctrl_bits s e c
    simp only [Instr.op, Op.instr, hslot, hio, hclr]
  | nop | cksum _ | decode _ | push _ | status | flush | rx _ => rfl

/-- Settles O8: a command's transaction is legal for the command's row, and its fields are the operands. -/
theorem decodeOfEncodeIsInstruction : Obligations.DecodeOfEncodeIsInstruction := by
  unfold Obligations.DecodeOfEncodeIsInstruction
  intro i hwf
  obtain ⟨hop, hlen⟩ := encodedWord i hwf
  exact decode_eq_ok_iff.mpr ⟨i.op, hop, hlen, instr_encode i⟩

/-- CNT spells the number of data-in bytes it declares (30_encoding R75). -/
theorem countOf_eq_cntField {cmd : Word} {din : List Byte} (h : din.length = (cntField cmd).toNat) :
    countOf din = cntField cmd := by
  rw [countOf, h, BitVec.ofNat_toNat, BitVec.setWidth_eq]

/-- A number of data-in bytes that a word declares is one CNT can declare. -/
theorem length_le_countMax {cmd : Word} {din : List Byte} (h : din.length = (cntField cmd).toNat) :
    din.length ≤ countMax :=
  h ▸ Nat.le_of_lt_succ (cntField cmd).isLt

/-- A word that matches a row with CNT alone is the word of that OP and CNT. -/
theorem commandWord_of_and_cntMask {cmd : Word} {op : BitVec 4} {cnt : Half}
    (h : cmd &&& 0xFF0000FF#32 = op.setWidth 32) (hcnt : cnt = cntField cmd) : commandWord op 0 0 cnt = cmd :=
  word_eq_of_cntMask ((commandWord_and_cntMask op cnt).trans h.symm) ((cntField_commandWord ..).trans hcnt)

/-- A word that matches ENCODE's row is the word of its ID, TY and CNT. -/
theorem commandWord_of_and_encodeMask {cmd : Word} {op : BitVec 4} {cnt : Half}
    (h : cmd &&& 0xFF00000F#32 = op.setWidth 32) (hcnt : cnt = cntField cmd) :
    commandWord op (idField cmd) (tyField cmd) cnt = cmd :=
  word_eq_of_encodeMask ((commandWord_and_encodeMask ..).trans h.symm) (idField_commandWord ..)
    (tyField_commandWord ..) ((cntField_commandWord ..).trans hcnt)

/-- A word that matches a row whose mask covers all of it is that row's word. -/
theorem eq_of_and_fullMask {cmd v : Word} (h : cmd &&& 0xFFFFFFFF#32 = v) : v = cmd := by
  rw [← h]
  exact BitVec.and_allOnes

/-- No bit of a legal word is dropped (30_encoding R62, R63). -/
theorem encode_instr_cmd {t : Transaction} {op : Op} (hop : opOf t.cmd = some op)
    (hlen : t.din.length = op.dataLength t.cmd) : (encode (op.instr t)).cmd = t.cmd := by
  have hrow := (opOf_eq_some_iff t.cmd op).mp hop
  cases op with
  | nop | decode | status | flush => exact eq_of_and_fullMask hrow
  | cksum | push | rx => exact commandWord_of_and_cntMask hrow (countOf_eq_cntField hlen)
  | peek | seek => exact commandWord_of_and_cntMask hrow rfl
  | encode => exact commandWord_of_and_encodeMask hrow (countOf_eq_cntField hlen)
  | wrctrl =>
    obtain ⟨hmask, hslot, hio, hclr⟩ := encode_wrctrl_bits (t.cmd.getLsbD 8) (t.cmd.getLsbD 9) (t.cmd.getLsbD 10)
    exact word_eq_of_wrctrlMask (hmask.trans hrow.symm) hslot hio hclr

/-- A command without data-in bytes has a transaction without them, and the others hold theirs (30_encoding R65). -/
theorem encode_instr_din {t : Transaction} {op : Op} (hlen : t.din.length = op.dataLength t.cmd) :
    (encode (op.instr t)).din = t.din := by
  cases op with
  | nop | status | peek | seek | flush | wrctrl => exact (List.eq_nil_of_length_eq_zero hlen).symm
  | cksum | encode | decode | push | rx => rfl

theorem wellFormed_instr {t : Transaction} {op : Op} (hlen : t.din.length = op.dataLength t.cmd) :
    (op.instr t).wellFormed = true := by
  cases op with
  | nop | status | peek | seek | flush | wrctrl => rfl
  | cksum | encode | push | rx => exact decide_eq_true (length_le_countMax hlen)
  | decode => exact decide_eq_true hlen

/-- Settles O9: the word and the data-in bytes are both those the command is spelled with. -/
theorem encodeOfDecodeIsTransaction : Obligations.EncodeOfDecodeIsTransaction := by
  unfold Obligations.EncodeOfDecodeIsTransaction
  intro t i h
  obtain ⟨op, hop, hlen, rfl⟩ := decode_eq_ok_iff.mp h
  have hcmd := encode_instr_cmd hop hlen
  have hdin := encode_instr_din hlen
  refine ⟨?_, wellFormed_instr hlen⟩
  calc encode (op.instr t)
      = ⟨(encode (op.instr t)).cmd, (encode (op.instr t)).din⟩ := rfl
    _ = ⟨t.cmd, t.din⟩ := by rw [hcmd, hdin]

/-! ### Sample words and pseudo-instructions -/

/-- Settles O7, by running the decoder. -/
theorem sampleWordsDecode : Obligations.SampleWordsDecode := by
  unfold Obligations.SampleWordsDecode
  decide

/-- The word of ENCODE_IO for every slot id (30_encoding R77). -/
theorem commandWord_encodeIo (id : BitVec 2) :
    commandWord 2#4 id 2#2 8#16 = 0x882#32 ||| (id.setWidth 32 <<< 4) := by
  revert id
  decide

/-- Settles O13: the words are numerals but that of ENCODE_IO, which holds the OPEN slot id. -/
theorem pseudoInstructionsExpand : Obligations.PseudoInstructionsExpand := by
  unfold Obligations.PseudoInstructionsExpand
  refine ⟨by decide, by decide, ?_, by decide, by decide⟩
  intro din hlen
  have hcnt : countOf din = 8#16 := by rw [countOf, hlen]
  rw [Pseudo.expand, encode, hcnt, commandWord_encodeIo]

end Sys2Proof

namespace Sys2Proof.Machine

/-- Settles O10: each operation by its row, E(CMD) by the column of that name. -/
theorem opcodeMapIsTheTable : Obligations.OpcodeMapIsTheTable := by
  unfold Obligations.OpcodeMapIsTheTable
  intro cmd
  have row := opOf_eq_some_iff cmd
  refine ⟨row .nop, row .cksum, row .encode, row .decode, row .push, row .status, row .peek, row .seek, row .flush,
    row .rx, row .wrctrl, ?_, ?_⟩
  · intro hnone s din rest hp
    rw [step_transaction hp, performTransaction_error _ (decode_of_opOf_eq_none hnone)]
    rfl
  · cases hop : opOf cmd with
    | none => simp [expectedLength, hop]
    | some op => simp only [expectedLength, hop, Op.dataLength_eq, Option.some.injEq]

end Sys2Proof.Machine
end

section
/-! PROOFS. What a transaction returns (30_encoding R60, R69): one result whatever it is, and events from RX alone, each a
legal record. -/

namespace Sys2Proof.Machine

/-! ### The events of a scan -/

/-- What Decode asks of a message (41_frame_codec R96, R97), the terms of 30_encoding R69 but for the slot id. -/
def SlotMessage.Legal (m : SlotMessage) : Prop :=
  (((m.slotType = 0#8 ∨ m.slotType = 1#8) ∧ m.length.toNat ≤ 248) ∨ (m.slotType = 2#8 ∧ m.length.toNat = 8))
    ∧ m.payload.length = m.length.toNat

/-- A declared payload that lies inside the frame has the declared length. -/
theorem framePayload_length {fr : List Byte} (hfr : fr.length = 256) (hl : (frameLength fr).toNat ≤ 251) :
    (framePayload fr).length = (frameLength fr).toNat := by
  rw [framePayload, slice_length, hfr, offPay]
  omega

/-- The later steps of Decode let only legal messages through. -/
theorem legal_of_laterSteps {fr : List Byte} {m : SlotMessage} (hfr : fr.length = 256) (h : laterSteps fr = .ok m) :
    m.Legal := by
  rcases laterSteps_cases fr with ⟨-, -, he⟩ | ⟨-, -, he⟩ | ⟨-, he⟩ | ⟨hfields, he⟩ <;> rw [he] at h <;> cases h
  exact ⟨hfields, framePayload_length hfr (by omega)⟩

/-- So does Decode, whatever is drawn. -/
theorem legal_of_decodeFrame {draw : Bool} {fr : List Byte} {m : SlotMessage} (hfr : fr.length = 256)
    (h : decodeFrame draw fr = .ok m) : m.Legal := by
  rcases decodeFrame_cases draw fr with ⟨-, he⟩ | ⟨-, ⟨-, -, he⟩ | ⟨-, -, he⟩ | ⟨-, r, -, he⟩⟩ <;> rw [he] at h
  · cases h
  · cases h
  · exact legal_of_laterSteps hfr h
  · cases h

/-- The fan-out turns a legal message into legal records (43_synchronizer R142). -/
theorem dispatch_legal {m : SlotMessage} (ctrl : Ctrl) (hm : m.Legal) : ∀ e ∈ dispatch ctrl m, e.Legal := by
  obtain ⟨hfields, hpayload⟩ := hm
  intro e he
  unfold dispatch at he
  split_ifs at he with hid hty hslot hio
  · cases he
  · obtain rfl := List.mem_singleton.mp he
    rcases hfields with ⟨-, hl⟩ | ⟨h2, -⟩
    · exact ⟨hty, hl, hpayload⟩
    · rw [h2] at hty
      exact absurd hty (by decide)
  · cases he
  · obtain rfl := List.mem_singleton.mp he
    rcases hfields with ⟨h01, -⟩ | ⟨-, hl⟩
    · exact absurd h01 hty
    · exact ⟨hl, hpayload.trans hl⟩
  · cases he

theorem scan_events_legal (s : State) : ∀ e ∈ (scan s).events, e.Legal := by
  refine scan_induct (P := fun _ r => ∀ e ∈ r.events, e.Legal) ?short ?resync ?accept s
  case short => intro s _ e he; cases he
  case resync => intro s r _ _ ih; exact ih
  case accept =>
    intro s m _ hv ih e he
    rcases List.mem_append.mp he with hnew | hrest
    · exact dispatch_legal _ (legal_of_decodeFrame (Block.fifoPeek_length _ _) hv) e hnew
    · exact ih e hrest

/-! ### The events of a command -/

/-- Every command ends by returning a result: RX one with the events of its scan, every other command one with none. -/
theorem exec_eq_respond (i : Instr) (s : State) :
    ∃ (u : State) (r : Result), exec i s = .next (u.respond r) ∧ u.results = s.results
      ∧ (r.events = [] ∨ ∃ d, i = .rx d ∧ r.events = (scan (s.withBlock (s.block.fifoPush d))).events) := by
  cases i with
  | nop | cksum _ | push _ | status | flush | wrctrl _ _ _ => exact ⟨_, _, rfl, rfl, .inl rfl⟩
  | encode id ty din =>
    cases he : encodeFrame (id.setWidth 8) (ty.setWidth 8) din with
    | none => exact ⟨_, _, exec_encode_none s he, rfl, .inl rfl⟩
    | some fr => exact ⟨_, _, exec_encode_some s he, rfl, .inl rfl⟩
  | decode din =>
    cases hv : s.verdict din with
    | invalid r => exact ⟨_, _, exec_decode_invalid hv, rfl, .inl rfl⟩
    | ok m => exact ⟨_, _, exec_decode_ok hv, rfl, .inl rfl⟩
  | peek cnt =>
    rcases Nat.lt_or_ge s.block.len cnt.toNat with hn | hn
    · exact ⟨_, _, exec_peek_underflow hn, rfl, .inl rfl⟩
    · exact ⟨_, _, exec_peek_ok hn, rfl, .inl rfl⟩
  | seek cnt =>
    rcases Nat.lt_or_ge s.block.len cnt.toNat with hn | hn
    · exact ⟨_, _, exec_seek_underflow hn, rfl, .inl rfl⟩
    · exact ⟨_, _, exec_seek_ok hn, rfl, .inl rfl⟩
  | rx din => exact ⟨_, _, exec_rx din s, (scan_frame _).2.2, .inr ⟨din, rfl, rfl⟩⟩

/-- Where the events of the result that a command returned come from. -/
theorem returned_events_cases {i : Instr} {s t : State} {r : Result} (h : exec i s = .next t) (hr : s.Returned t r) :
    r.events = [] ∨ ∃ d, i = .rx d ∧ r.events = (scan (s.withBlock (s.block.fifoPush d))).events := by
  obtain ⟨u, r', hu, hresults, hevents⟩ := exec_eq_respond i s
  rw [hu] at h
  cases h
  have happend : s.results ++ [r'] = s.results ++ [r] := by
    rw [← hr.1, State.respond_results, hresults]
  obtain rfl := List.singleton_injective (List.append_cancel_left happend)
  exact hevents

/-- Settles O52: a scan emits legal records alone, and only RX emits what a scan does. -/
theorem eventsAreLegalRecords : Obligations.EventsAreLegalRecords := by
  unfold Obligations.EventsAreLegalRecords
  intro i s t r h hr
  rcases returned_events_cases h hr with hnone | ⟨d, hi, hscan⟩
  · rw [hnone]
    exact ⟨nofun, fun hne => absurd rfl hne⟩
  · rw [hscan]
    exact ⟨scan_events_legal _, fun _ => ⟨d, hi⟩⟩

/-! ### The step -/

/-- Settles O4: a legal transaction is taken and its command executed. -/
theorem stepRunsDecodedInstruction : Obligations.StepRunsDecodedInstruction := by
  unfold Obligations.StepRunsDecodedInstruction
  intro s t rest i hp hd
  rw [step_transaction hp, performTransaction_ok _ hd]

/-- A transaction, legal or not, is taken and answered with one result, which has events only if it is an RX. -/
theorem step_transaction_returns {s : State} {t : Transaction} {rest : List HostInput}
    (hp : s.pending = .transaction t :: rest) :
    ∃ u r, step s = .next u ∧ u.results = s.results ++ [r] ∧ u.pending = rest
      ∧ (r.events ≠ [] → ∃ d, decode t = .ok (.rx d)) := by
  cases hd : decode t with
  | error e =>
    exact ⟨_, _, (step_transaction hp).trans (performTransaction_error _ hd), rfl, rfl, fun hne => absurd rfl hne⟩
  | ok i =>
    obtain ⟨u, r, hu, hr⟩ := exec_returns i { s with pending := rest }
    have hevents : r.events ≠ [] → ∃ d, i = .rx d := (eventsAreLegalRecords i _ u r hu hr).2
    refine ⟨u, r, (stepRunsDecodedInstruction s t rest i hp hd).trans hu, hr.1, hr.2, fun hne => ?_⟩
    obtain ⟨d, rfl⟩ := hevents hne
    exact ⟨d, rfl⟩

/-- Settles O5: an idle step and a reset answer a next state too. -/
theorem everyTransactionReturnsOneResult : Obligations.EveryTransactionReturnsOneResult := by
  unfold Obligations.EveryTransactionReturnsOneResult
  refine ⟨fun s => ?_, fun s t rest hp => step_transaction_returns hp⟩
  cases hp : s.pending with
  | nil => exact ⟨_, step_idle hp⟩
  | cons input rest =>
    cases input with
    | reset => exact ⟨_, step_reset hp⟩
    | transaction t =>
      obtain ⟨u, -, hu, -⟩ := step_transaction_returns hp
      exact ⟨u, hu⟩

end Sys2Proof.Machine
end

section
/-! PROOFS. The checksum unit (40_checksum R80, R82): the rounds of a byte, that they lose nothing of the register,
and the command CKSUM. -/

namespace Sys2Proof.Machine

/-! ### The rounds lose nothing -/

/-- POLY is odd, so the lowest bit of the register tells after a round whether POLY went in. -/
theorem crcRound_getLsbD_zero (r : Half) : (crcRound r).getLsbD 0 = r.getLsbD 15 := by
  unfold crcRound
  split
  · next h => simp only [h, BitVec.getLsbD_xor, BitVec.getLsbD_shiftLeft]; rfl
  · next h => simp only [h, BitVec.getLsbD_shiftLeft]; rfl

/-- A shift by one loses bit 15 alone. -/
theorem eq_of_shiftLeft_one_eq {a b : Half} (htop : a.getLsbD 15 = b.getLsbD 15) (hshift : a <<< 1 = b <<< 1) :
    a = b := by
  ext i hi
  rcases Nat.lt_succ_iff_lt_or_eq.mp hi with hlow | rfl
  · have hbit : (a <<< 1).getLsbD (i + 1) = (b <<< 1).getLsbD (i + 1) := by rw [hshift]
    simpa [BitVec.getLsbD_shiftLeft, Nat.succ_lt_succ hlow] using hbit
  · simpa using htop

/-- A round can be undone: its lowest bit says whether to take POLY out again, and is the bit that was shifted out. -/
theorem crcRound_injective : Function.Injective crcRound := by
  intro a b h
  have htop : a.getLsbD 15 = b.getLsbD 15 := by rw [← crcRound_getLsbD_zero, h, crcRound_getLsbD_zero]
  refine eq_of_shiftLeft_one_eq htop ?_
  unfold crcRound at h
  rw [htop] at h
  split at h
  · exact (BitVec.xor_left_inj _).mp h
  · exact h

theorem crcRounds_injective (n : Nat) : Function.Injective (crcRounds n) := by
  rw [funext (crcRounds_eq_iterate n)]
  exact crcRound_injective.iterate n

/-- Registers that differ before a byte differ after it. -/
theorem crcByte_left_injective (b : Byte) : Function.Injective fun r => crcByte r b :=
  fun _ _ h => (BitVec.xor_left_inj _).mp (crcRounds_injective 8 h)

/-- A byte is not lost where it is XORed into the high byte. -/
theorem setWidth_shiftLeft_injective : Function.Injective fun b : Byte => b.setWidth 16 <<< 8 := by
  intro b c h
  apply BitVec.eq_of_getLsbD_eq
  intro i hi
  have hbit : (b.setWidth 16 <<< 8).getLsbD (i + 8) = (c.setWidth 16 <<< 8).getLsbD (i + 8) :=
    congrArg (BitVec.getLsbD · (i + 8)) h
  simpa [BitVec.getLsbD_shiftLeft, BitVec.getLsbD_setWidth, show i + 8 < 16 by omega, show i < 16 by omega] using hbit

/-- Different bytes take the register to different values. -/
theorem crcByte_right_injective (r : Half) : Function.Injective (crcByte r) :=
  fun _ _ h => setWidth_shiftLeft_injective ((BitVec.xor_right_inj _).mp (crcRounds_injective 8 h))

/-- Registers that differ stay different over any bytes they both take. -/
theorem foldl_crcByte_injective (data : List Byte) : Function.Injective (data.foldl crcByte) := by
  induction data with
  | nil => exact Function.injective_id
  | cons b data ih => exact ih.comp (crcByte_left_injective b)

/-- Settles O27: the registers are equal up to the changed byte, differ after it, and no later byte makes them equal. -/
theorem oneChangedByteChangesChecksum : Obligations.OneChangedByteChangesChecksum := by
  unfold Obligations.OneChangedByteChangesChecksum
  intro before after b c hbc heq
  rw [checksum_append, checksum_append, List.foldl_cons, List.foldl_cons] at heq
  have hbyte : crcByte (checksum before) b = crcByte (checksum before) c := foldl_crcByte_injective after heq
  exact hbc (crcByte_right_injective _ hbyte)

/-! ### The rounds of one byte, and CKSUM -/

/-- Settles O25: one more byte is one more step of the fold, and its rounds are iterations of one. -/
theorem checksumFollowsTheRounds : Obligations.ChecksumFollowsTheRounds := by
  unfold Obligations.ChecksumFollowsTheRounds
  refine ⟨checksum_nil, fun data b => ?_⟩
  calc checksum (data ++ [b])
    _ = crcByte (checksum data) b := checksum_append data [b]
    _ = crcRound^[8] (checksum data ^^^ (b.setWidth 16 <<< 8)) := crcRounds_eq_iterate 8 _

/-- The two halves of a zero-extended 16-bit value. -/
theorem extractLsb'_setWidth_low (c : Half) : (c.setWidth 32).extractLsb' 0 16 = c := by
  rw [BitVec.extractLsb'_setWidth_of_le (by decide), BitVec.extractLsb'_eq_self]

theorem extractLsb'_setWidth_high (c : Half) : (c.setWidth 32).extractLsb' 16 16 = 0#16 := by
  apply BitVec.eq_of_getLsbD_eq
  intro i _
  rw [BitVec.getLsbD_extractLsb', BitVec.getLsbD_setWidth, BitVec.getLsbD_of_ge c (16 + i) (by omega)]
  simp

/-- Settles O28: CKSUM answers with the checksum alone, and only the results of the machine change. -/
theorem cksumReturnsChecksum : Obligations.CksumReturnsChecksum := by
  unfold Obligations.CksumReturnsChecksum
  intro din s
  exact ⟨_, _, exec_cksum din s, ⟨rfl, rfl⟩, rfl, rfl, extractLsb'_setWidth_low _, extractLsb'_setWidth_high _,
    rfl, rfl, rfl, rfl, rfl, rfl⟩

end Sys2Proof.Machine
end

section
/-! PROOFS. Decode (41_frame_codec R94 to R97): the answer of each of its steps as an equation, and the frames it accepts. -/

namespace Sys2Proof.Machine

/-! ### The five steps, one equation each -/

/-- What step 2 asks: where the checksum window lies inside the frame, a right checksum, and else a draw that says so
(41_frame_codec R94, R95). -/
def PassesChecksum (draw : Bool) (fr : List Byte) : Prop :=
  if 5 + (frameLength fr).toNat ≤ 256 then checksum (frameWindow fr) = frameChecksum fr else draw = true

section
variable {draw : Bool} {fr : List Byte}

theorem passesChecksum_iff_of_le (hl : (frameLength fr).toNat ≤ 251) :
    PassesChecksum draw fr ↔ checksum (frameWindow fr) = frameChecksum fr := by
  rw [PassesChecksum, if_pos (by omega)]

theorem passesChecksum_iff_of_ge (hl : 252 ≤ (frameLength fr).toNat) : PassesChecksum draw fr ↔ draw = true := by
  rw [PassesChecksum, if_neg (by omega)]

theorem decodeFrame_of_bad_markers (h : ¬ (byteAt fr 0 = 0x55#8 ∧ byteAt fr 255 = 0xAA#8)) :
    decodeFrame draw fr = .invalid .marker := by
  rcases decodeFrame_cases draw fr with ⟨-, he⟩ | ⟨hm, -⟩
  · exact he
  · exact absurd hm h

theorem decodeFrame_of_bad_checksum (hm : byteAt fr 0 = 0x55#8 ∧ byteAt fr 255 = 0xAA#8)
    (hck : ¬ PassesChecksum draw fr) : decodeFrame draw fr = .invalid .checksum := by
  rcases decodeFrame_cases draw fr with ⟨hbad, -⟩ | ⟨-, ⟨-, -, he⟩ | ⟨hl, heq, -⟩ | ⟨hl, r, -, he⟩⟩
  · exact absurd hm hbad
  · exact he
  · exact absurd ((passesChecksum_iff_of_le hl).mpr heq) hck
  · rw [he, if_neg (mt (passesChecksum_iff_of_ge hl).mpr hck)]

theorem decodeFrame_of_passesChecksum (hm : byteAt fr 0 = 0x55#8 ∧ byteAt fr 255 = 0xAA#8)
    (hck : PassesChecksum draw fr) : decodeFrame draw fr = laterSteps fr := by
  rcases decodeFrame_cases draw fr with ⟨hbad, -⟩ | ⟨-, ⟨hl, hne, -⟩ | ⟨-, -, he⟩ | ⟨hl, r, hr, he⟩⟩
  · exact absurd hm hbad
  · exact absurd ((passesChecksum_iff_of_le hl).mp hck) hne
  · exact he
  · rw [he, if_pos ((passesChecksum_iff_of_ge hl).mp hck), hr]

/-- Steps 3 to 5 with the numbers of 41_frame_codec R94 written out. -/
theorem laterSteps_eq_ite (fr : List Byte) :
    laterSteps fr =
      if (byteAt fr 2 = 0#8 ∨ byteAt fr 2 = 1#8) ∧ 248 < (frameLength fr).toNat then .invalid .length
      else if byteAt fr 2 = 2#8 ∧ (frameLength fr).toNat ≠ 8 then .invalid .ioLength
      else if ¬ (byteAt fr 2 = 0#8 ∨ byteAt fr 2 = 1#8 ∨ byteAt fr 2 = 2#8) then .invalid .type
      else .ok (messageOf fr) := rfl

theorem laterSteps_of_long (hty : byteAt fr 2 = 0#8 ∨ byteAt fr 2 = 1#8) (hl : 248 < (frameLength fr).toNat) :
    laterSteps fr = .invalid .length := by
  rw [laterSteps_eq_ite, if_pos ⟨hty, hl⟩]

theorem laterSteps_of_bad_ioLength (hty : byteAt fr 2 = 2#8) (hl : (frameLength fr).toNat ≠ 8) :
    laterSteps fr = .invalid .ioLength := by
  simp [laterSteps_eq_ite, hty, hl]

theorem laterSteps_of_bad_type (h0 : byteAt fr 2 ≠ 0#8) (h1 : byteAt fr 2 ≠ 1#8) (h2 : byteAt fr 2 ≠ 2#8) :
    laterSteps fr = .invalid .type := by
  simp [laterSteps_eq_ite, h0, h1, h2]

/-- The message of a frame that passes the later steps. -/
theorem laterSteps_of_good (h : ((byteAt fr 2 = 0#8 ∨ byteAt fr 2 = 1#8) ∧ (frameLength fr).toNat ≤ 248)
      ∨ (byteAt fr 2 = 2#8 ∧ (frameLength fr).toNat = 8)) :
    laterSteps fr = .ok (messageOf fr) := by
  rcases h with ⟨h0 | h1, hl⟩ | ⟨h2, hl⟩
  · simp [laterSteps_eq_ite, h0, hl]
  · simp [laterSteps_eq_ite, h1, hl]
  · simp [laterSteps_eq_ite, h2, hl]

/-- A length over 251 fails one of the later steps, and the type says which. -/
theorem laterSteps_of_length_ge (hl : 252 ≤ (frameLength fr).toNat) :
    laterSteps fr = .invalid (if byteAt fr 2 = 0#8 ∨ byteAt fr 2 = 1#8 then .length
      else if byteAt fr 2 = 2#8 then .ioLength else .type) := by
  split_ifs with h01 h2
  · exact laterSteps_of_long h01 (by omega)
  · exact laterSteps_of_bad_ioLength h2 (by omega)
  · exact laterSteps_of_bad_type (fun h => h01 (.inl h)) (fun h => h01 (.inr h)) h2

/-- The later steps report LENGTH, IO_LENGTH or TYPE. -/
theorem laterSteps_reason {r : Reason} (h : laterSteps fr = .invalid r) :
    r = .length ∨ r = .ioLength ∨ r = .type := by
  rcases laterSteps_cases fr with ⟨-, -, he⟩ | ⟨-, -, he⟩ | ⟨-, he⟩ | ⟨-, he⟩ <;> rw [he] at h <;> cases h
  · exact .inl rfl
  · exact .inr (.inl rfl)
  · exact .inr (.inr rfl)

/-- Every INVALID has a REASON. -/
theorem decodeFrame_reason_ne_none {r : Reason} (h : decodeFrame draw fr = .invalid r) : r ≠ .none := by
  rintro rfl
  by_cases hm : byteAt fr 0 = 0x55#8 ∧ byteAt fr 255 = 0xAA#8
  · by_cases hck : PassesChecksum draw fr
    · rw [decodeFrame_of_passesChecksum hm hck] at h
      rcases laterSteps_reason h with hr | hr | hr <;> cases hr
    · rw [decodeFrame_of_bad_checksum hm hck] at h
      cases h
  · rw [decodeFrame_of_bad_markers hm] at h
    cases h

end

/-- The length field as a number (20_memory R42). -/
theorem frameLength_toNat (fr : List Byte) : (frameLength fr).toNat = (byteAt fr 3).toNat + 256 * (byteAt fr 4).toNat :=
  le16_toNat _ _

/-- Settles O32: one clause per step, each the equation of that step. -/
theorem firstFailingStepIsReported : Obligations.FirstFailingStepIsReported := by
  unfold Obligations.FirstFailingStepIsReported
  intro draw fr _
  dsimp only
  rw [← frameLength_toNat]
  refine ⟨decodeFrame_of_bad_markers, decodeFrame_of_bad_checksum, fun hm hck hty hl => ?length,
    fun hm hck hty hl => ?ioLength, fun hm hck hty => ?type, fun hm hck hgood => ?message⟩
  all_goals rw [decodeFrame_of_passesChecksum hm hck]
  case length => exact laterSteps_of_long hty hl
  case ioLength => exact laterSteps_of_bad_ioLength hty hl
  case type =>
    have hne (b : Byte) (hb : b.toNat < 3) : byteAt fr 2 ≠ b := fun h => absurd hty (by rw [h]; omega)
    exact laterSteps_of_bad_type (hne _ (by decide)) (hne _ (by decide)) (hne _ (by decide))
  case message =>
    rw [laterSteps_of_good hgood, BitVec.ofNat_toNat, BitVec.setWidth_eq]
    rfl

/-- Settles O33: the later steps refuse a length over 251 whatever is drawn, and no draw is reached under it. -/
theorem drawDecidesReasonAlone : Obligations.DrawDecidesReasonAlone := by
  unfold Obligations.DrawDecidesReasonAlone
  intro fr _
  refine ⟨fun hl => ⟨fun draw => ?_, fun h0 h255 => ⟨?_, ?_⟩⟩, fun hl => ⟨?_, fun h0 h255 => ?_⟩⟩
  · rcases decodeFrame_cases draw fr with ⟨-, he⟩ | ⟨-, ⟨-, -, he⟩ | ⟨hl', -, -⟩ | ⟨-, r, -, he⟩⟩
    · exact ⟨_, he⟩
    · exact ⟨_, he⟩
    · omega
    · exact ⟨_, he⟩
  · exact decodeFrame_of_bad_checksum ⟨h0, h255⟩ (by simp [passesChecksum_iff_of_ge hl])
  · rw [decodeFrame_of_passesChecksum ⟨h0, h255⟩ ((passesChecksum_iff_of_ge hl).mpr rfl)]
    exact laterSteps_of_length_ge hl
  · exact decodeFrame_eq_of_no_draw (drawsChecksum_eq_false_of_length_le hl) _ _
  · have hpass (draw : Bool) : PassesChecksum draw fr ↔
        checksum (slice fr 3 (5 + (frameLength fr).toNat)) = le16 (byteAt fr 253) (byteAt fr 254) :=
      passesChecksum_iff_of_le hl
    constructor
    · rintro ⟨draw, he⟩ heq
      rw [decodeFrame_of_passesChecksum ⟨h0, h255⟩ ((hpass draw).mpr heq)] at he
      rcases laterSteps_reason he with hr | hr | hr <;> cases hr
    · exact fun hne => ⟨false, decodeFrame_of_bad_checksum ⟨h0, h255⟩ (mt (hpass false).mp hne)⟩

/-! ### The frames it accepts -/

/-- A valid frame decodes to the message it holds, whatever is drawn (41_frame_codec R96, R97). -/
theorem decodeFrame_of_validFrame {fr : List Byte} (draw : Bool) (h : ValidFrame fr) :
    decodeFrame draw fr = .ok (messageOf fr) := by
  obtain ⟨-, hm, hl, hck, hty⟩ := h
  have hpass : PassesChecksum draw fr := (passesChecksum_iff_of_le (by omega)).mpr hck
  rw [decodeFrame_of_passesChecksum hm hpass]
  exact laterSteps_of_good (hty.imp_left fun h01 => ⟨h01, hl⟩)

/-- Nothing else decodes (41_frame_codec R96). -/
theorem validFrame_of_decodeFrame {draw : Bool} {fr : List Byte} {m : SlotMessage} (hfr : fr.length = 256)
    (h : decodeFrame draw fr = .ok m) : ValidFrame fr := by
  rcases decodeFrame_cases draw fr with ⟨-, he⟩ | ⟨hm, ⟨-, -, he⟩ | ⟨-, hck, he⟩ | ⟨-, r, -, he⟩⟩ <;> rw [he] at h
  · cases h
  · cases h
  · rcases laterSteps_cases fr with ⟨-, -, hs⟩ | ⟨-, -, hs⟩ | ⟨-, hs⟩ | ⟨hgood, -⟩
    · rw [hs] at h; cases h
    · rw [hs] at h; cases h
    · rw [hs] at h; cases h
    · exact ⟨hfr, hm, by omega, hck, hgood.imp_left And.left⟩
  · cases h

theorem decodeFrame_eq_ok_iff {draw : Bool} {fr : List Byte} {m : SlotMessage} (hfr : fr.length = 256) :
    decodeFrame draw fr = .ok m ↔ ValidFrame fr ∧ m = messageOf fr := by
  constructor
  · intro h
    have hv := validFrame_of_decodeFrame hfr h
    rw [decodeFrame_of_validFrame draw hv] at h
    exact ⟨hv, (Verdict.ok.inj h).symm⟩
  · rintro ⟨hv, rfl⟩
    exact decodeFrame_of_validFrame draw hv

/-- Every other frame is refused with some REASON. -/
theorem decodeFrame_of_not_validFrame {fr : List Byte} (draw : Bool) (hfr : fr.length = 256) (h : ¬ ValidFrame fr) :
    ∃ r, decodeFrame draw fr = .invalid r := by
  cases hd : decodeFrame draw fr with
  | ok m => exact absurd (validFrame_of_decodeFrame hfr hd) h
  | invalid r => exact ⟨r, rfl⟩

/-- Settles O34: both directions are lemmas above, and a length over 248 makes a frame invalid. -/
theorem decodeAcceptsExactlyValidFrames : Obligations.DecodeAcceptsExactlyValidFrames := by
  unfold Obligations.DecodeAcceptsExactlyValidFrames
  intro draw fr hfr
  refine ⟨⟨fun ⟨_, hm⟩ => validFrame_of_decodeFrame hfr hm, fun hv => ⟨_, decodeFrame_of_validFrame draw hv⟩⟩,
    fun hl => decodeFrame_of_not_validFrame draw hfr ?_⟩
  rintro ⟨-, -, hle, -, -⟩
  omega

/-- Settles O35: the message is the one the frame holds, and Decode lets only legal ones through. -/
theorem decodedMessageFields : Obligations.DecodedMessageFields := by
  unfold Obligations.DecodedMessageFields
  intro draw fr m hfr h
  obtain ⟨hfields, hpayload⟩ := legal_of_decodeFrame hfr h
  obtain ⟨-, rfl⟩ := (decodeFrame_eq_ok_iff hfr).mp h
  exact ⟨rfl, rfl, frameLength_toNat fr, hfields, rfl, hpayload⟩

end Sys2Proof.Machine
end

section
/-! PROOFS. The command DECODE (41_frame_codec R98): the packing of V0, and its answer to a valid and to an invalid frame. -/

namespace Sys2Proof.Machine

/-- The three fields of V0 of a successful DECODE, bit by bit (41_frame_codec R98). -/
theorem packMessage_getLsbD (slotId slotType : Byte) (length : Half) (i : Nat) :
    (packMessage slotId slotType length).getLsbD i =
      if i < 8 then slotId.getLsbD i else if i < 16 then slotType.getLsbD (i - 8) else length.getLsbD (i - 16) := by
  have hid : 8 ≤ i → slotId.getLsbD i = false := BitVec.getLsbD_of_ge _ _
  have hty : 8 ≤ i - 8 → slotType.getLsbD (i - 8) = false := BitVec.getLsbD_of_ge _ _
  have hlen : 16 ≤ i - 16 → length.getLsbD (i - 16) = false := BitVec.getLsbD_of_ge _ _
  unfold packMessage
  simp only [BitVec.getLsbD_or, BitVec.getLsbD_shiftLeft, BitVec.getLsbD_setWidth]
  split_ifs with h8 h16
  · simp [h8, show i < 16 by omega, show i < 32 by omega]
  · simp [h8, h16, hid (by omega), show i < 32 by omega, show i - 8 < 32 by omega]
  · by_cases h32 : i < 32
    · simp [h16, h32, hid (by omega), hty (by omega), show i - 16 < 32 by omega]
    · simp [h32, hlen (by omega)]

section
variable (slotId slotType : Byte) (length : Half)

@[simp] theorem packMessage_slotId : (packMessage slotId slotType length).extractLsb' 0 8 = slotId := by
  apply BitVec.eq_of_getLsbD_eq
  intro i hi
  simp [packMessage_getLsbD, hi]

@[simp] theorem packMessage_slotType : (packMessage slotId slotType length).extractLsb' 8 8 = slotType := by
  apply BitVec.eq_of_getLsbD_eq
  intro i hi
  simp [packMessage_getLsbD, hi, show 8 + i < 16 by omega]

@[simp] theorem packMessage_length : (packMessage slotId slotType length).extractLsb' 16 16 = length := by
  apply BitVec.eq_of_getLsbD_eq
  intro i hi
  simp [packMessage_getLsbD, hi, show ¬ 16 + i < 8 by omega]

end

/-- Settles O36: a valid frame takes no draw and decodes to the message it holds. -/
theorem decodeReturnsMessage : Obligations.DecodeReturnsMessage := by
  unfold Obligations.DecodeReturnsMessage
  intro fr s hv
  have hverdict : s.verdict fr = .ok (messageOf fr) := decodeFrame_of_validFrame s.nextDraw hv
  obtain ⟨hfr, -, hl, -, -⟩ := hv
  have hdraws : (s.afterDecode fr).draws = s.draws := by
    simp [drawsChecksum_eq_false_of_length_le (show (frameLength fr).toNat ≤ 251 by omega)]
  exact ⟨_, _, exec_decode_ok hverdict, ⟨rfl, rfl⟩, rfl, rfl, packMessage_slotId _ _ _, packMessage_slotType _ _ _,
    packMessage_length _ _ _, rfl, rfl, rfl, framePayload_length hfr (by omega), rfl, rfl, hdraws⟩

/-- Settles O37: the REASON is the one for the machine's own next draw. -/
theorem decodeReportsInvalidFrames : Obligations.DecodeReportsInvalidFrames := by
  unfold Obligations.DecodeReportsInvalidFrames
  intro fr s hfr hv
  obtain ⟨r, hr⟩ := decodeFrame_of_not_validFrame s.nextDraw hfr hv
  have hdraws : (s.afterDecode fr).draws = s.draws ∨ (s.afterDecode fr).draws = s.draws + 1 := by
    rw [State.afterDecode_draws]
    split
    · exact .inr rfl
    · exact .inl rfl
  refine ⟨_, r, exec_decode_invalid hr, ⟨rfl, rfl⟩, decodeFrame_reason_ne_none hr, ⟨_, hr⟩, rfl, ?_⟩
  rw [State.respond_draws]
  omega

end Sys2Proof.Machine
end

section
/-! PROOFS. What Decode does not look at (41_frame_codec R99): the padding, and of the slot id anything but its value to
report. -/

namespace Sys2Proof.Machine

/-- The verdict with another slot id in its message. -/
def Verdict.withSlotId (x : Byte) : Verdict → Verdict
  | .ok m => .ok { m with slotId := x }
  | .invalid r => .invalid r

/-- Two frames that are the same but for padding and slot id (41_frame_codec R99). -/
def SameButPaddingAndId (fr fr' : List Byte) : Prop :=
  fr.length = 256 ∧ fr'.length = 256
    ∧ ∀ k, k < 256 → k ≠ 1 → ¬ (5 + (frameLength fr).toNat ≤ k ∧ k < 253) → byteAt fr' k = byteAt fr k

section
variable {fr fr' : List Byte} (h : SameButPaddingAndId fr fr')
include h

/-- A byte outside padding and slot id. -/
theorem SameButPaddingAndId.byteAt_eq {k : Nat} (hk : k < 256) (hid : k ≠ 1)
    (hpad : k < 5 + (frameLength fr).toNat ∨ 253 ≤ k) : byteAt fr' k = byteAt fr k := by
  obtain ⟨-, -, hb⟩ := h
  exact hb k hk hid (by omega)

theorem SameButPaddingAndId.frameLength_eq : frameLength fr' = frameLength fr := by
  have h3 : byteAt fr' 3 = byteAt fr 3 := h.byteAt_eq (by omega) (by omega) (by omega)
  have h4 : byteAt fr' 4 = byteAt fr 4 := h.byteAt_eq (by omega) (by omega) (by omega)
  simp only [frameLength, offLen, h3, h4]

/-- A slice that begins after the slot id and ends with the declared payload sees nothing of either. -/
theorem SameButPaddingAndId.slice_eq {a : Nat} (ha : 2 ≤ a) :
    slice fr' a (5 + (frameLength fr).toNat) = slice fr a (5 + (frameLength fr).toNat) := by
  obtain ⟨hfr, hfr', -⟩ := id h
  exact slice_congr (hfr'.trans hfr.symm) fun k hak hk hk' => h.byteAt_eq (by omega) (by omega) (.inl hk)

theorem SameButPaddingAndId.laterSteps_eq :
    laterSteps fr' = (laterSteps fr).withSlotId (byteAt fr' 1) := by
  have hty : byteAt fr' 2 = byteAt fr 2 := h.byteAt_eq (by omega) (by omega) (by omega)
  have hpay : framePayload fr' = framePayload fr := by
    rw [framePayload, h.frameLength_eq]
    exact h.slice_eq (by decide)
  unfold laterSteps
  simp only [offType, offId, hty, h.frameLength_eq, hpay]
  split_ifs <;> rfl

/-- Decode sees the slot id only to report it, and the padding not at all (41_frame_codec R99). -/
theorem SameButPaddingAndId.decodeFrame_eq (draw : Bool) :
    decodeFrame draw fr' = (decodeFrame draw fr).withSlotId (byteAt fr' 1) := by
  have hmarkers : markersOk fr' = markersOk fr := by
    have h0 : byteAt fr' 0 = byteAt fr 0 := h.byteAt_eq (by omega) (by omega) (by omega)
    have h255 : byteAt fr' 255 = byteAt fr 255 := h.byteAt_eq (by omega) (by omega) (by omega)
    simp only [markersOk, offStart, offStop, h0, h255]
  have hinside : windowInside fr' = windowInside fr := by rw [windowInside, h.frameLength_eq, windowInside]
  have hck : checksumMatches fr' = checksumMatches fr := by
    have hwindow : frameWindow fr' = frameWindow fr := by
      rw [frameWindow, h.frameLength_eq]
      exact h.slice_eq (by decide)
    have h253 : byteAt fr' 253 = byteAt fr 253 := h.byteAt_eq (by omega) (by omega) (by omega)
    have h254 : byteAt fr' 254 = byteAt fr 254 := h.byteAt_eq (by omega) (by omega) (by omega)
    simp only [checksumMatches, frameChecksum, offCk, hwindow, h253, h254]
  have hdrawn (v : Verdict) (x : Byte) : drawnStep draw (v.withSlotId x) = (drawnStep draw v).withSlotId x := by
    cases v <;> cases draw <;> rfl
  unfold decodeFrame
  rw [hmarkers, hinside, hck, h.laterSteps_eq, hdrawn]
  split_ifs <;> rfl

end

/-- A message has the slot id of its frame. -/
theorem withSlotId_decodeFrame_self {draw : Bool} {fr : List Byte} (hfr : fr.length = 256) :
    (decodeFrame draw fr).withSlotId (byteAt fr 1) = decodeFrame draw fr :=
  (SameButPaddingAndId.decodeFrame_eq ⟨hfr, hfr, fun _ _ _ _ => rfl⟩ draw).symm

theorem byteAt_set_self {xs : List Byte} {i : Nat} (x : Byte) (h : i < xs.length) : byteAt (xs.set i x) i = x := by
  simp [byteAt, List.getD_eq_getElem?_getD, h]

theorem byteAt_set_of_ne {xs : List Byte} {i k : Nat} (x : Byte) (h : k ≠ i) : byteAt (xs.set i x) k = byteAt xs k := by
  simp [byteAt, List.getD_eq_getElem?_getD, List.getElem?_set_ne h.symm]

/-- Settles O38: both parts compare a frame with one that is the same but for padding and slot id. -/
theorem paddingAndSlotIdDoNotMatter : Obligations.PaddingAndSlotIdDoNotMatter := by
  unfold Obligations.PaddingAndSlotIdDoNotMatter
  intro draw fr hfr
  refine ⟨fun fr' hfr' hb => ?_, fun x => ?_⟩
  · have hsame : SameButPaddingAndId fr fr' := ⟨hfr, hfr', fun k hk _ hpad => hb k hk hpad⟩
    rw [hsame.decodeFrame_eq, hb 1 (by omega) (by omega), withSlotId_decodeFrame_self hfr]
  · have hsame : SameButPaddingAndId fr (fr.set 1 x) :=
      ⟨hfr, by rw [List.length_set, hfr], fun k _ hk _ => byteAt_set_of_ne x hk⟩
    have heq := hsame.decodeFrame_eq draw
    rw [byteAt_set_self x (by omega)] at heq
    exact ⟨fun r hr => by rw [heq, hr]; rfl, fun m hm => by rw [heq, hm]; rfl⟩

end Sys2Proof.Machine
end

section
/-! PROOFS. Encode (41_frame_codec R90 to R92): the frame it builds, field by field, the command ENCODE, and that Decode
reads the frame back (R100). -/

namespace Sys2Proof.Machine

/-! ### The encoded frame -/

/-- What the checksum of an encoded frame is taken over: the length field and the payload (30_encoding R71). -/
def encodedWindow (pay : List Byte) : List Byte :=
  lowByte (BitVec.ofNat 16 pay.length) :: highByte (BitVec.ofNat 16 pay.length) :: pay

/-- The frame with these fields (30_encoding R70). -/
def encodedFrame (id ty : Byte) (pay : List Byte) : List Byte :=
  0x55#8 :: id :: ty :: (encodedWindow pay ++ zeros (248 - pay.length))
    ++ [lowByte (checksum (encodedWindow pay)), highByte (checksum (encodedWindow pay)), 0xAA#8]

theorem encodeFrame_of_le (id ty : Byte) {pay : List Byte} (h : pay.length ≤ 248) :
    encodeFrame id ty pay = some (encodedFrame id ty pay) := by
  rcases encodeFrame_cases id ty pay with ⟨hlong, -⟩ | ⟨-, window, ck, rfl, rfl, he⟩
  · omega
  · exact he

theorem encodeFrame_of_gt (id ty : Byte) {pay : List Byte} (h : 248 < pay.length) : encodeFrame id ty pay = none := by
  rcases encodeFrame_cases id ty pay with ⟨-, he⟩ | ⟨hshort, -⟩
  · exact he
  · omega

@[simp] theorem zeros_length (n : Nat) : (zeros n).length = n := List.length_replicate

@[simp] theorem encodedWindow_length (pay : List Byte) : (encodedWindow pay).length = pay.length + 2 := rfl

/-- The high byte of a length under 256 is zero, and the low byte holds all of it. -/
theorem encodedWindow_of_le {pay : List Byte} (h : pay.length ≤ 248) :
    encodedWindow pay = BitVec.ofNat 8 pay.length :: 0#8 :: pay := by
  have hlow : lowByte (BitVec.ofNat 16 pay.length) = BitVec.ofNat 8 pay.length := by
    apply BitVec.eq_of_toNat_eq
    rw [lowByte, BitVec.extractLsb'_toNat, BitVec.toNat_ofNat, BitVec.toNat_ofNat]
    omega
  have hhigh : highByte (BitVec.ofNat 16 pay.length) = 0#8 := by
    apply BitVec.eq_of_toNat_eq
    rw [highByte, BitVec.extractLsb'_toNat, BitVec.toNat_ofNat, Nat.shiftRight_eq_div_pow, BitVec.toNat_ofNat]
    omega
  rw [encodedWindow, hlow, hhigh]

section
variable (id ty : Byte) (pay : List Byte)

@[simp] theorem byteAt_encodedFrame_start : byteAt (encodedFrame id ty pay) 0 = 0x55#8 := rfl
@[simp] theorem byteAt_encodedFrame_id : byteAt (encodedFrame id ty pay) 1 = id := rfl
@[simp] theorem byteAt_encodedFrame_type : byteAt (encodedFrame id ty pay) 2 = ty := rfl

@[simp] theorem frameLength_encodedFrame : frameLength (encodedFrame id ty pay) = BitVec.ofNat 16 pay.length :=
  le16_lowByte_highByte _

/-- The window of the frame is the one its checksum was taken over. -/
@[simp] theorem slice_encodedFrame_window : slice (encodedFrame id ty pay) 3 (5 + pay.length) = encodedWindow pay := by
  have hlen : 5 + pay.length - 3 = (encodedWindow pay).length := by rw [encodedWindow_length]; omega
  rw [slice, hlen, encodedFrame, List.cons_append, List.cons_append, List.cons_append, List.append_assoc]
  exact List.take_left

@[simp] theorem slice_encodedFrame_payload : slice (encodedFrame id ty pay) 5 (5 + pay.length) = pay := by
  simp [slice, encodedFrame, encodedWindow]

variable {pay} (h : pay.length ≤ 248)
include h

theorem encodedFrame_length : (encodedFrame id ty pay).length = 256 :=
  encodeFrame_length (encodeFrame_of_le id ty h)

/-- The last three bytes are the checksum and the stop marker. -/
theorem byteAt_encodedFrame_tail (k : Nat) :
    byteAt (encodedFrame id ty pay) (253 + k) =
      byteAt [lowByte (checksum (encodedWindow pay)), highByte (checksum (encodedWindow pay)), 0xAA#8] k := by
  have hlen : (0x55#8 :: id :: ty :: (encodedWindow pay ++ zeros (248 - pay.length))).length = 253 := by
    simp only [List.length_cons, List.length_append, encodedWindow_length, zeros_length]
    omega
  rw [encodedFrame, byteAt_append_right (by omega), hlen, Nat.add_sub_cancel_left]

theorem byteAt_encodedFrame_padding {k : Nat} (hlow : 5 + pay.length ≤ k) (hhigh : k < 253) :
    byteAt (encodedFrame id ty pay) k = 0#8 := by
  have hsplit : encodedFrame id ty pay = ([0x55#8, id, ty] ++ encodedWindow pay) ++ (zeros (248 - pay.length)
      ++ [lowByte (checksum (encodedWindow pay)), highByte (checksum (encodedWindow pay)), 0xAA#8]) := by
    simp [encodedFrame]
  have hlen : ([0x55#8, id, ty] ++ encodedWindow pay).length = 5 + pay.length := by
    simp only [List.length_cons, List.length_append, List.length_nil, encodedWindow_length]
    omega
  have hk : k - (5 + pay.length) < (zeros (248 - pay.length)).length := by
    rw [zeros_length]
    omega
  rw [hsplit, byteAt_append_right (by omega), hlen, byteAt_append_left hk, byteAt_eq_getElem hk]
  exact List.getElem_replicate _

theorem frameChecksum_encodedFrame :
    frameChecksum (encodedFrame id ty pay) = checksum (encodedWindow pay) := by
  rw [frameChecksum, byteAt_encodedFrame_tail id ty h 0, byteAt_encodedFrame_tail id ty h 1]
  exact le16_lowByte_highByte _

end

/-- Settles O29: the fields of the frame one by one. -/
theorem encodedFrameLayout : Obligations.EncodedFrameLayout := by
  unfold Obligations.EncodedFrameLayout
  intro id ty pay
  refine ⟨encodeFrame_of_gt id ty, fun h => ⟨_, encodeFrame_of_le id ty h, encodedFrame_length id ty h,
    rfl, rfl, rfl, frameLength_encodedFrame id ty pay, ?high, slice_encodedFrame_payload id ty pay,
    fun k => byteAt_encodedFrame_padding id ty h, ?_, ?_, byteAt_encodedFrame_tail id ty h 2⟩⟩
  case high =>
    rw [encodedFrame, encodedWindow_of_le h]
    rfl
  · rw [slice_encodedFrame_window]
    exact byteAt_encodedFrame_tail id ty h 0
  · rw [slice_encodedFrame_window]
    exact byteAt_encodedFrame_tail id ty h 1

/-! ### The command ENCODE -/

/-- Settles O30: the checksum in the frame is that of its window. -/
theorem encodeReturnsFrameAndChecksum : Obligations.EncodeReturnsFrameAndChecksum := by
  unfold Obligations.EncodeReturnsFrameAndChecksum
  intro id ty din s h
  have he := encodeFrame_of_le (id.setWidth 8) (ty.setWidth 8) h
  refine ⟨_, _, exec_encode_some s he, ⟨rfl, rfl⟩, he, ?_, rfl, rfl, rfl⟩
  rw [frameChecksum_encodedFrame _ _ h, encodedWindow_of_le h]

/-- Settles O31: there is no frame, so PAYLOAD_TOO_LARGE is returned and nothing else done. -/
theorem encodeRejectsLongPayload : Obligations.EncodeRejectsLongPayload := by
  unfold Obligations.EncodeRejectsLongPayload
  intro id ty din s h
  exact exec_encode_none s (encodeFrame_of_gt _ _ h)

/-! ### The round trip -/

section
variable (draw : Bool) (id ty : Byte) {pay : List Byte} (h : pay.length ≤ 248)
include h

theorem frameLength_encodedFrame_toNat : (frameLength (encodedFrame id ty pay)).toNat = pay.length := by
  rw [frameLength_encodedFrame, BitVec.toNat_ofNat]
  omega

/-- An encoded frame passes steps 1 and 2 of Decode; only its type and length can be refused. -/
theorem decodeFrame_encodedFrame :
    decodeFrame draw (encodedFrame id ty pay) = laterSteps (encodedFrame id ty pay) := by
  have hlen := frameLength_encodedFrame_toNat id ty h
  refine decodeFrame_of_passesChecksum ⟨rfl, byteAt_encodedFrame_tail id ty h 2⟩ ?_
  rw [passesChecksum_iff_of_le (by omega), frameChecksum_encodedFrame id ty h, frameWindow, hlen]
  exact congrArg checksum (slice_encodedFrame_window id ty pay)

/-- The message an encoded frame holds is the one that was encoded. -/
theorem messageOf_encodedFrame : messageOf (encodedFrame id ty pay) = ⟨id, ty, BitVec.ofNat 16 pay.length, pay⟩ := by
  rw [messageOf, frameLength_encodedFrame_toNat id ty h, frameLength_encodedFrame, slice_encodedFrame_payload]
  rfl

end

/-- Settles O39: the frame passes the first two steps, and the type says what the later ones answer. -/
theorem decodeOfEncodedFrame : Obligations.DecodeOfEncodedFrame := by
  unfold Obligations.DecodeOfEncodedFrame
  intro draw id ty pay h
  have hlen (ty : Byte) := frameLength_encodedFrame_toNat (id.setWidth 8) ty h
  refine ⟨_, encodeFrame_of_le _ _ h, ?message, ?ioLength, ?type⟩
  all_goals rw [decodeFrame_encodedFrame draw _ _ h]
  case message =>
    intro hty
    rw [← messageOf_encodedFrame _ _ h]
    apply laterSteps_of_good
    rw [hlen, byteAt_encodedFrame_type]
    rcases hty with (rfl | rfl) | ⟨rfl, h8⟩
    · exact .inl ⟨.inl rfl, h⟩
    · exact .inl ⟨.inr rfl, h⟩
    · exact .inr ⟨rfl, h8⟩
  case ioLength =>
    rintro rfl h8
    exact laterSteps_of_bad_ioLength rfl (by rw [hlen]; exact h8)
  case type =>
    rintro rfl
    apply laterSteps_of_bad_type <;> rw [byteAt_encodedFrame_type] <;> decide

end Sys2Proof.Machine
end

section
/-! PROOFS. The FIFO primitives and the five commands that expose them (42_fifo R120 to R129): the invariants of the cursors,
counts as result words, and what PUSH, STATUS, PEEK, SEEK and FLUSH return and leave of the block. -/

namespace Sys2Proof.Machine

/-! ### The invariants of the cursors -/

/-- Settles O14: reset, the primitives, the commands and the steps keep the invariants by the lemma on each; the cursors after
a primitive are those of its definition, and a command that calls none leaves them alone. -/
theorem fifoInvariantsAreKept : Obligations.FifoInvariantsAreKept := by
  unfold Obligations.FifoInvariantsAreKept
  refine ⟨?reset, ?push, ?seek, ?flush, fun _ _ _ => exec_cursorsOk, ?command, fun _ _ => step_cursorsOk⟩
  case reset =>
    obtain ⟨-, hcursors, -⟩ := resetMeetsInvariant
    exact ⟨hcursors, rfl, rfl, rfl⟩
  case push =>
    exact fun b d h => ⟨Block.cursorsOk_fifoPush d h, b.accepts d, b.accepts_le_room d, rfl, rfl, rfl⟩
  case seek =>
    exact fun b n h hn => ⟨Block.cursorsOk_fifoSeek h hn, Nat.sub_add_cancel hn, rfl, rfl⟩
  case flush =>
    exact fun b h => ⟨Block.cursorsOk_fifoFlush h, rfl, rfl, rfl⟩
  case command =>
    exact fun i s t hpush hrx hseek hflush h =>
      ⟨exec_head h hseek hrx hflush, exec_tail h hpush hrx hflush, exec_len h hseek hpush hrx hflush⟩

/-! ### Counts as result words -/

/-- A count of at most 2^32 - 1 is the value of its result word (entry 13). -/
theorem countWord_toNat {n : Nat} (h : n ≤ 2 ^ 32 - 1) : (countWord n).toNat = n :=
  (BitVec.toNat_ofNat n 32).trans (Nat.mod_eq_of_lt (by omega))

/-- LEN fits a result word, as C does (00_scope R8, 42_fifo R129). -/
theorem State.Inv.len_le {s : State} (h : s.Inv) : s.block.len ≤ 2 ^ 32 - 1 := by
  obtain ⟨⟨-, hC⟩, ⟨hlen, -, -⟩, -⟩ := h
  exact hlen.trans hC

/-! ### FifoPush -/

theorem Block.drops_pos_iff (b : Block) (d : List Byte) : 0 < b.drops d ↔ b.accepts d < d.length := Nat.sub_pos_iff_lt

/-- OVF after a push, by the number of bytes accepted (42_fifo R120). -/
theorem Block.fifoPush_ovf_of_accepts (b : Block) (d : List Byte) :
    (b.fifoPush d).ovf = (b.ovf || decide (b.accepts d < d.length)) := by
  rw [Block.fifoPush_ovf, ovfAfterPush_eq, decide_eq_decide.mpr (b.drops_pos_iff d)]

/-- A push changes no byte of MEM but those from TAIL on where the accepted bytes go (42_fifo R120). -/
theorem Block.fifoPush_read_of_ne {b : Block} {d : List Byte} {a : Nat}
    (h : ∀ k, k < b.accepts d → a ≠ (b.tail + k) % b.capacity) : (b.fifoPush d).mem.read a = b.mem.read a := by
  rw [Block.fifoPush_mem]
  apply memWrite_read_of_ne
  rwa [List.length_take_of_le (b.accepts_le_length d)]

/-! ### The commands -/

/-- Settles O40: `acc` is what FifoPush accepts, and a chunk of 65535 bytes has counts that fit the result words. -/
theorem pushAppendsWhatFits : Obligations.PushAppendsWhatFits := by
  unfold Obligations.PushAppendsWhatFits
  rintro d s ⟨-, hcursors, hmem, -⟩ hd acc
  have hcount {n : Nat} (hn : n ≤ d.length) : (countWord n).toNat = n := countWord_toNat (by omega)
  exact ⟨_, _, exec_push d s, ⟨rfl, rfl⟩, if_congr (s.block.drops_pos_iff d) rfl rfl, rfl,
    hcount (s.block.accepts_le_length d), hcount (Nat.sub_le _ _), rfl, rfl, rfl,
    Block.content_fifoPush d hcursors hmem, rfl, rfl, rfl, s.block.fifoPush_ovf_of_accepts d, rfl, rfl, rfl,
    fun _ => Block.fifoPush_read_of_ne⟩

/-- Settles O41: LEN and C fit their result words, and V2 is the STATUS view of the flags. -/
theorem statusReportsState : Obligations.StatusReportsState := by
  unfold Obligations.StatusReportsState
  intro s hs
  have ⟨⟨_, hC⟩, _⟩ := hs
  exact ⟨_, _, exec_status s, ⟨rfl, rfl⟩, rfl, rfl, countWord_toNat hs.len_le, countWord_toNat hC,
    statusFlags_getLsbD _ _, rfl, rfl, rfl, rfl⟩

/-- Settles O42: what FifoPeek returns are the first bytes of Q. -/
theorem peekReturnsOldestBytes : Obligations.PeekReturnsOldestBytes := by
  unfold Obligations.PeekReturnsOldestBytes
  intro cnt s h
  exact ⟨_, _, exec_peek_ok h, ⟨rfl, rfl⟩, rfl, Block.fifoPeek_eq h, Block.fifoPeek_length _ _, rfl, rfl, rfl⟩

/-- Settles O43: both commands take their UNDERFLOW branch, with the same result. -/
theorem peekOrSeekPastLenUnderflows : Obligations.PeekOrSeekPastLenUnderflows := by
  unfold Obligations.PeekOrSeekPastLenUnderflows
  intro cnt s hs h
  exact ⟨_, rfl, rfl, countWord_toNat hs.len_le, rfl, rfl, rfl, rfl, exec_peek_underflow h, exec_seek_underflow h⟩

/-- Settles O44: FifoSeek drops the first bytes of Q and writes HEAD and LEN alone. -/
theorem seekDropsOldestBytes : Obligations.SeekDropsOldestBytes := by
  unfold Obligations.SeekDropsOldestBytes
  intro cnt s hs h
  exact ⟨_, _, exec_seek_ok h, ⟨rfl, rfl⟩, rfl, rfl, countWord_toNat ((Nat.sub_le _ _).trans hs.len_le), rfl, rfl, rfl, rfl,
    s.block.content_fifoSeek _, rfl, rfl, rfl, rfl⟩

/-- Settles O45: FifoFlush empties Q and leaves MEM as it is. -/
theorem flushEmptiesFifo : Obligations.FlushEmptiesFifo := by
  unfold Obligations.FlushEmptiesFifo
  exact fun s => ⟨_, exec_flush s, ⟨rfl, rfl⟩, s.block.content_fifoFlush, rfl, rfl, rfl, rfl, rfl, rfl, rfl, fun _ => rfl⟩

end Sys2Proof.Machine
end

section
/-! PROOFS. The rules of the scan as a relation on byte streams (43_synchronizer R141): each stream has one scan, a scan of
what came first goes on with what comes later, and how many bytes a scan takes. -/

namespace Sys2Proof.Machine

/-! ### What a scan takes -/

section
variable {ctrl : Ctrl} {q q' : List Byte} {ev : List Event} {frames skips : Nat}

/-- A scan stops with less than a frame (43_synchronizer R145). -/
theorem Scans.left_lt (h : Scans ctrl q ev frames skips q') : q'.length < 256 := by
  induction h with
  | stop _ short => exact short
  | resync _ _ _ _ _ _ _ _ ih => exact ih
  | accept _ _ _ _ _ _ _ _ ih => exact ih

/-- Every byte a scan takes is one of a consumed frame or one slid past (43_synchronizer R144). -/
theorem Scans.counts (h : Scans ctrl q ev frames skips q') : skips + 256 * frames + q'.length = q.length := by
  induction h with
  | stop _ _ => omega
  | resync q _ _ _ _ long _ _ ih => rw [List.length_drop] at ih; omega
  | accept q _ _ _ _ long _ _ ih => rw [List.length_drop] at ih; omega

/-- The bound on the iterations (43_synchronizer R144): none under a frame's length, and then one more with each byte. -/
theorem Scans.iterations_le (h : Scans ctrl q ev frames skips q') : frames + skips ≤ q.length - 255 := by
  induction h with
  | stop _ _ => omega
  | resync q _ _ _ _ long _ _ ih => rw [List.length_drop] at ih; omega
  | accept q _ _ _ _ long _ _ ih => rw [List.length_drop] at ih; omega

/-- A scan takes bytes from the head of the stream alone. -/
theorem Scans.left_eq_drop (h : Scans ctrl q ev frames skips q') : q' = q.drop (skips + 256 * frames) := by
  induction h with
  | stop _ _ => rfl
  | resync _ _ _ _ _ _ _ _ ih => rw [ih, List.drop_drop]; congr 1; omega
  | accept _ _ _ _ _ _ _ _ ih => rw [ih, List.drop_drop]; congr 1; omega

/-! ### One scan for each stream -/

/-- The rules leave no choice. -/
theorem Scans.unique {q'' : List Byte} {ev' : List Event} {frames' skips' : Nat}
    (h : Scans ctrl q ev frames skips q') (h' : Scans ctrl q ev' frames' skips' q'') :
    ev = ev' ∧ frames = frames' ∧ skips = skips' ∧ q' = q'' := by
  induction h generalizing ev' frames' skips' q'' with
  | stop q short =>
    cases h' with
    | stop _ _ => exact ⟨rfl, rfl, rfl, rfl⟩
    | resync _ _ _ _ _ long _ _ => omega
    | accept _ _ _ _ _ long _ _ => omega
  | resync q _ _ _ _ long bad _ ih =>
    cases h' with
    | stop _ short => omega
    | resync _ _ _ _ _ _ _ rest =>
      obtain ⟨rfl, rfl, rfl, rfl⟩ := ih rest
      exact ⟨rfl, rfl, rfl, rfl⟩
    | accept _ _ _ _ _ _ good _ => exact absurd good bad
  | accept q _ _ _ _ long good _ ih =>
    cases h' with
    | stop _ short => omega
    | resync _ _ _ _ _ _ bad _ => exact absurd good bad
    | accept _ _ _ _ _ _ _ rest =>
      obtain ⟨rfl, rfl, rfl, rfl⟩ := ih rest
      exact ⟨rfl, rfl, rfl, rfl⟩

/-! ### Scans one after another -/

/-- What a scan of `q` leaves, with more bytes behind it, scans as `q` does with those bytes behind it (43_synchronizer
R146): bytes that come later are in no candidate of the first scan. -/
theorem Scans.append {more q'' : List Byte} {ev' : List Event} {frames' skips' : Nat}
    (h : Scans ctrl q ev frames skips q') (h' : Scans ctrl (q' ++ more) ev' frames' skips' q'') :
    Scans ctrl (q ++ more) (ev ++ ev') (frames + frames') (skips + skips') q'' := by
  have hlong {p : List Byte} (hp : 256 ≤ p.length) : 256 ≤ (p ++ more).length := by
    rw [List.length_append]; omega
  have hcandidate {p : List Byte} (hp : 256 ≤ p.length) : (p ++ more).take 256 = p.take 256 :=
    List.take_append_of_le_length hp
  induction h with
  | stop q _ => simpa using h'
  | resync q _ _ skips _ long bad _ ih =>
    rw [show skips + 1 + skips' = skips + skips' + 1 by omega]
    refine .resync _ _ _ _ _ (hlong long) (hcandidate long ▸ bad) ?_
    rw [List.drop_append_of_le_length (by omega)]
    exact ih h'
  | accept q _ frames _ _ long good _ ih =>
    rw [show frames + 1 + frames' = frames + frames' + 1 by omega, List.append_assoc, ← hcandidate long]
    refine .accept _ _ _ _ _ (hlong long) ((hcandidate long).symm ▸ good) ?_
    rw [List.drop_append_of_le_length long]
    exact ih h'

/-- Sliding past `n` candidates none of which is a valid frame. -/
theorem Scans.slide (n : Nat) (hlong : n + 255 ≤ q.length) (hbad : ∀ o < n, ¬ ValidFrame (slice q o (o + 256)))
    (h : Scans ctrl (q.drop n) ev frames skips q') : Scans ctrl q ev frames (skips + n) q' := by
  have hwindow (p : List Byte) (o : Nat) : slice p o (o + 256) = (p.drop o).take 256 := by
    rw [slice, Nat.add_sub_cancel_left]
  simp only [hwindow] at hbad
  induction n generalizing q with
  | zero => exact h
  | succ n ih =>
    refine .resync _ _ _ _ _ (by omega) (hbad 0 (by omega)) (ih (by rw [List.length_drop]; omega) ?_ ?_)
    · rwa [List.drop_drop, Nat.add_comm]
    · intro o ho
      rw [List.drop_drop, Nat.add_comm]
      exact hbad (o + 1) (by omega)

/-- A stream that is one valid frame. -/
theorem Scans.of_validFrame {fr : List Byte} (ctrl : Ctrl) (hv : ValidFrame fr) :
    Scans ctrl fr (dispatch ctrl (messageOf fr)) 1 0 [] := by
  have hlen : fr.length = 256 := hv.1
  have htake : fr.take 256 = fr := List.take_of_length_le hlen.le
  have hstop : Scans ctrl (fr.drop 256) [] 0 0 [] := by
    rw [List.drop_eq_nil_of_le hlen.le]
    exact .stop [] (by decide)
  have h := Scans.accept fr [] 0 0 [] hlen.ge (htake.symm ▸ hv) hstop
  rwa [htake, List.append_nil] at h

end

/-! ### The scan of the machine -/

/-- The machine's scan follows the rules, on Q, whatever is drawn. -/
theorem scan_scans (s : State) :
    Scans s.block.ctrl s.block.content (scan s).events (scan s).frames (scan s).skips (scan s).state.block.content := by
  refine scan_induct (P := fun s r =>
    Scans s.block.ctrl s.block.content r.events r.frames r.skips r.state.block.content) ?short ?resync ?accept s
  case short =>
    intro s hshort
    exact .stop _ (s.block.content_length.trans_lt hshort)
  case resync =>
    intro s r hlong hv ih
    rw [Block.fifoPeek_eq hlong] at hv
    simp only [State.seek_block, State.afterDecode_block, Block.content_fifoSeek, Block.fifoSeek_ctrl] at ih
    refine .resync _ _ _ _ _ (hlong.trans s.block.content_length.ge) (fun hgood => ?_) ih
    rw [State.verdict, decodeFrame_of_validFrame _ hgood] at hv
    cases hv
  case accept =>
    intro s m hlong hv ih
    have hlen : (s.block.content.take 256).length = 256 :=
      List.length_take_of_le (hlong.trans s.block.content_length.ge)
    rw [Block.fifoPeek_eq hlong] at hv
    obtain ⟨hgood, rfl⟩ := (decodeFrame_eq_ok_iff hlen).mp hv
    simp only [State.seek_block, State.afterDecode_block, Block.content_fifoSeek, Block.fifoSeek_ctrl] at ih
    dsimp only
    exact .accept _ _ _ _ _ (hlong.trans s.block.content_length.ge) hgood ih

end Sys2Proof.Machine
end

section
/-! PROOFS. The command RX (43_synchronizer R143 to R147): its push, its scan, its counts, and when it drops nothing. -/

namespace Sys2Proof.Machine

/-! ### Chunks that fit -/

theorem Block.content_of_len_zero {b : Block} (h : b.len = 0) : b.content = [] :=
  List.eq_nil_of_length_eq_zero (b.content_length.trans h)

theorem Block.accepts_of_fits {b : Block} {d : List Byte} (h : b.len + d.length ≤ b.capacity) : b.accepts d = d.length :=
  Nat.min_eq_left (by omega)

/-- A push drops nothing exactly when the whole chunk fits (43_synchronizer R147). -/
theorem Block.drops_eq_zero_iff {b : Block} (d : List Byte) (hb : b.len ≤ b.capacity) :
    b.drops d = 0 ↔ b.len + d.length ≤ b.capacity := by
  rw [Block.drops_eq]
  omega

/-! ### RX -/

/-- The scan that RX makes, after its push. -/
def State.rxScan (s : State) (d : List Byte) : ScanResult := scan (s.withBlock (s.block.fifoPush d))

/-- The result that RX returns (43_synchronizer R143). -/
def State.rxResult (s : State) (d : List Byte) : Result where
  resp :=
    { status := if s.block.drops d > 0 then .capacityExceeded else .ok
      v0 := countWord (s.block.accepts d)
      v1 := countWord (s.rxScan d).frames
      v2 := countWord (s.rxScan d).skips }
  events := (s.rxScan d).events

theorem exec_rx_eq_respond (d : List Byte) (s : State) :
    exec (.rx d) s = .next ((s.rxScan d).state.respond (s.rxResult d)) := exec_rx d s

theorem returned_rx (d : List Byte) (s : State) :
    s.Returned ((s.rxScan d).state.respond (s.rxResult d)) (s.rxResult d) := by
  obtain ⟨-, hpending, hresults⟩ := scan_frame (s.withBlock (s.block.fifoPush d))
  exact ⟨congrArg (· ++ [s.rxResult d]) hresults, hpending⟩

theorem rxScan_len_lt (d : List Byte) (s : State) : (s.rxScan d).state.block.len < 256 := (scan_counts _).1

section
variable {s : State} {d : List Byte}

/-- RX scans Q with the accepted bytes behind it (43_synchronizer R141, R143). -/
theorem rxScan_scans (d : List Byte) (hs : s.Inv) :
    Scans s.block.ctrl (s.block.content ++ d.take (s.block.accepts d)) (s.rxScan d).events (s.rxScan d).frames
      (s.rxScan d).skips (s.rxScan d).state.block.content := by
  obtain ⟨-, hcursors, hmem, -⟩ := hs
  rw [← Block.content_fifoPush d hcursors hmem]
  exact scan_scans (s.withBlock (s.block.fifoPush d))

/-- RX counts every byte it takes (43_synchronizer R144). -/
theorem rxScan_counts (d : List Byte) (s : State) :
    (s.rxScan d).skips + 256 * (s.rxScan d).frames + (s.rxScan d).state.block.len = s.block.len + s.block.accepts d :=
  (scan_counts _).2

/-- Q with the accepted bytes is no longer than C. -/
theorem len_add_accepts_le (d : List Byte) (hs : s.Inv) : s.block.len + s.block.accepts d ≤ 2 ^ 32 - 1 := by
  have hroom := s.block.accepts_le_room d
  obtain ⟨⟨-, hC⟩, ⟨hlen, -, -⟩, -⟩ := hs
  omega

theorem rxResult_v0_toNat (d : List Byte) (hs : s.Inv) : (s.rxResult d).resp.v0.toNat = s.block.accepts d :=
  countWord_toNat (by have := len_add_accepts_le d hs; omega)

theorem rxResult_v1_toNat (d : List Byte) (hs : s.Inv) : (s.rxResult d).resp.v1.toNat = (s.rxScan d).frames :=
  countWord_toNat (by have := len_add_accepts_le d hs; have := rxScan_counts d s; omega)

theorem rxResult_v2_toNat (d : List Byte) (hs : s.Inv) : (s.rxResult d).resp.v2.toNat = (s.rxScan d).skips :=
  countWord_toNat (by have := len_add_accepts_le d hs; have := rxScan_counts d s; omega)

/-- RX returns OK exactly when the whole chunk fits (43_synchronizer R147). -/
theorem rxResult_status_ok_iff (d : List Byte) (hb : s.block.len ≤ s.block.capacity) :
    (s.rxResult d).resp.status = .ok ↔ s.block.len + d.length ≤ s.block.capacity := by
  rw [← Block.drops_eq_zero_iff d hb, State.rxResult]
  dsimp only
  split_ifs with h
  · exact ⟨nofun, fun h0 => absurd h (by omega)⟩
  · exact ⟨fun _ => by omega, fun _ => rfl⟩

/-- RX of a chunk that fits scans Q with the chunk behind it, and answers with the counts and events of the scan. -/
theorem exec_rx_of_fits (hs : s.Inv) (hfit : s.block.len + d.length ≤ s.block.capacity) :
    ∃ t r, exec (.rx d) s = .next t ∧ s.Returned t r
      ∧ Scans s.block.ctrl (s.block.content ++ d) r.events r.resp.v1.toNat r.resp.v2.toNat t.block.content := by
  refine ⟨_, _, exec_rx_eq_respond d s, returned_rx d s, ?_⟩
  have hscan := rxScan_scans d hs
  rwa [Block.accepts_of_fits hfit, List.take_length, ← rxResult_v1_toNat d hs, ← rxResult_v2_toNat d hs] at hscan

/-- RX of a chunk that fits, where the scan of the stream is known: the whole result, and what is left of the block. -/
theorem exec_rx_of_scans {ev : List Event} {frames skips : Nat} {q' : List Byte} (hs : s.Inv)
    (hfit : s.block.len + d.length ≤ s.block.capacity)
    (h : Scans s.block.ctrl (s.block.content ++ d) ev frames skips q') :
    ∃ t, exec (.rx d) s = .next t
      ∧ s.Returned t
          { resp := { v0 := countWord d.length, v1 := countWord frames, v2 := countWord skips }, events := ev }
      ∧ t.block.content = q' ∧ t.block.ctrl = s.block.ctrl ∧ t.block.ovf = s.block.ovf := by
  have hacc := Block.accepts_of_fits hfit
  have hdrops : s.block.drops d = 0 := (Block.drops_eq_zero_iff d (by omega)).mpr hfit
  have hscan := rxScan_scans d hs
  rw [hacc, List.take_length] at hscan
  obtain ⟨hev, hframes, hskips, hleft⟩ := hscan.unique h
  have hresult : s.rxResult d =
      { resp := { v0 := countWord d.length, v1 := countWord frames, v2 := countWord skips }, events := ev } := by
    simp [State.rxResult, hdrops, hacc, hev, hframes, hskips]
  refine ⟨_, exec_rx_eq_respond d s, hresult ▸ returned_rx d s, hleft, scan_ctrl _, ?_⟩
  calc (s.rxScan d).state.block.ovf = (s.block.fifoPush d).ovf := scan_ovf _
    _ = s.block.ovf := by rw [Block.fifoPush_ovf, hdrops]; rfl

end

/-- Settles O46: RX answers with the counts and the events of its scan, and the scan writes HEAD and LEN alone. -/
theorem rxFollowsScanRules : Obligations.RxFollowsScanRules := by
  unfold Obligations.RxFollowsScanRules
  intro d s hs _ acc
  refine ⟨_, _, exec_rx_eq_respond d s, returned_rx d s, ?scans, if_congr (s.block.drops_pos_iff d) rfl rfl, rfl,
    rxResult_v0_toNat d hs, rfl, scan_tail _, ?ovf, scan_ctrl _, scan_capacity _, ?mem⟩
  case scans =>
    rw [rxResult_v1_toNat d hs, rxResult_v2_toNat d hs]
    exact rxScan_scans d hs
  case ovf => exact (scan_ovf _).trans (s.block.fifoPush_ovf_of_accepts d)
  case mem =>
    intro a ha
    have hmem : (s.rxScan d).state.block.mem = (s.block.fifoPush d).mem := scan_mem _
    rw [State.respond_block, hmem]
    exact Block.fifoPush_read_of_ne ha

/-- Settles O47: the counts, the bound and what is left are those of the scan of the stream. -/
theorem rxTerminatesAndCountsBytes : Obligations.RxTerminatesAndCountsBytes := by
  unfold Obligations.RxTerminatesAndCountsBytes
  intro d s hs acc start
  have hscan : Scans s.block.ctrl (s.block.content ++ d.take acc) _ _ _ _ := rxScan_scans d hs
  have hstart : (s.block.content ++ d.take acc).length = start := by
    rw [List.length_append, Block.content_length, List.length_take_of_le (Nat.min_le_left _ _)]
  have hcounts : (s.rxScan d).skips + 256 * (s.rxScan d).frames + (s.rxScan d).state.block.len = start :=
    rxScan_counts d s
  have hiterations : (s.rxScan d).frames + (s.rxScan d).skips ≤ start - 255 := hstart ▸ hscan.iterations_le
  have hv1 := rxResult_v1_toNat d hs
  have hv2 := rxResult_v2_toNat d hs
  refine ⟨_, _, exec_rx_eq_respond d s, returned_rx d s, rxScan_len_lt d s, ?_, ?_, ?_, ?_, ?_⟩
  · rw [State.respond_block]; omega
  · rw [State.respond_block, hv1, hv2]; omega
  · intro hshort
    exact ⟨BitVec.eq_of_toNat_eq (by rw [hv1]; simp; omega), BitVec.eq_of_toNat_eq (by rw [hv2]; simp; omega)⟩
  · intro hlong
    rw [hv1, hv2]; omega
  · rw [State.respond_block, show start - (s.rxScan d).state.block.len
      = (s.rxScan d).skips + 256 * (s.rxScan d).frames by omega]
    exact hscan.left_eq_drop

/-! ### The fan-out -/

/-- The fan-out of a valid frame's message, in the frame's own bytes (43_synchronizer R142). -/
theorem dispatch_messageOf {fr : List Byte} (ctrl : Ctrl) (hv : ValidFrame fr) :
    dispatch ctrl (messageOf fr) =
      (if 3 < (byteAt fr 1).toNat then []
        else if byteAt fr 2 = 0#8 ∨ byteAt fr 2 = 1#8 then
          (if ctrl.slotEn = true then
            [.slot ((byteAt fr 1).extractLsb' 0 2) (byteAt fr 2) (frameLength fr)
              (slice fr 5 (5 + (frameLength fr).toNat))] else [])
        else if ctrl.ioEn = true then [.io (frameLength fr) (slice fr 5 13)] else []) := by
  obtain ⟨-, -, -, -, hty⟩ := hv
  rcases hty with h01 | ⟨-, hl⟩
  · simp [dispatch, messageOf, h01]
  · simp [dispatch, messageOf, hl]

/-- Settles O48: the stream is one valid frame, so the scan takes it as the one candidate there is. -/
theorem rxOfOneFrameDispatchesIt : Obligations.RxOfOneFrameDispatchesIt := by
  unfold Obligations.RxOfOneFrameDispatchesIt
  intro fr s hs hempty hv
  have hlen : fr.length = 256 := hv.1
  have hfit : s.block.len + fr.length ≤ s.block.capacity := by
    have hC := hs.1.1
    omega
  have hscan : Scans s.block.ctrl (s.block.content ++ fr) (dispatch s.block.ctrl (messageOf fr)) 1 0 [] := by
    rw [Block.content_of_len_zero hempty, List.nil_append]
    exact Scans.of_validFrame s.block.ctrl hv
  obtain ⟨t, ht, hreturned, hleft, hctrl, hovf⟩ := exec_rx_of_scans hs hfit hscan
  refine ⟨t, _, ht, hreturned, by rw [hlen]; rfl, rfl, ?_, hctrl, hovf, dispatch_messageOf s.block.ctrl hv⟩
  rw [← t.block.content_length, hleft, List.length_nil]

/-! ### Fragments (43_synchronizer R146) -/

/-- A command that R146 allows between two RX leaves the block as it is, but for OVF. -/
theorem exec_quiet {i : Instr} {s t : State} (hi : QuietFor s.block.ctrl i = true) (h : exec i s = .next t) :
    s.block.SameButOvf t.block := by
  rcases exec_block_cases h with hb | ⟨d, rfl, -⟩ | ⟨n, rfl, -, -⟩ | ⟨rfl, -⟩ | ⟨d, rfl, -⟩ | ⟨a, b, c, rfl, hb⟩
  · rw [hb]; rfl
  · cases hi
  · cases hi
  · cases hi
  · cases hi
  · have hctrl : s.block.ctrl = ⟨a, b⟩ := of_decide_eq_true hi
    rw [hb, ← hctrl]
    rfl

/-- So do several of them. -/
theorem execAll_quiet (between : List Instr) (s : State) (hq : ∀ i ∈ between, QuietFor s.block.ctrl i = true) :
    ∃ t, execAll between s = .next t ∧ s.block.SameButOvf t.block := by
  induction between generalizing s with
  | nil => exact ⟨s, rfl, rfl⟩
  | cons i rest ih =>
    obtain ⟨u, -, hu, -⟩ := exec_returns i s
    have hsu := exec_quiet (hq i List.mem_cons_self) hu
    have hctrl : u.block.ctrl = s.block.ctrl := by rw [hsu]
    obtain ⟨t, ht, hut⟩ := ih u (fun j hj => hctrl ▸ hq j (List.mem_cons_of_mem i hj))
    refine ⟨t, by simp only [execAll, hu, ht], ?_⟩
    rw [Block.SameButOvf, hut, hsu]

/-- The invariant does not read OVF. -/
theorem State.Inv.of_sameButOvf {s t : State} (hs : s.Inv) (h : s.block.SameButOvf t.block) : t.Inv := by
  rw [State.Inv, h]
  exact hs

/-- Every command keeps the invariant, as every step does. -/
theorem exec_inv {i : Instr} {s t : State} (hs : s.Inv) (h : exec i s = .next t) : t.Inv := by
  obtain ⟨hcapacity, hcursors, hmemory⟩ := hs
  refine ⟨?_, exec_cursorsOk hcursors h, exec_memoryOk (Block.capacity_pos_of_cursorsOk hcursors) hmemory h⟩
  rw [Block.CapacityOk, exec_capacity h]
  exact hcapacity

/-- Settles O49: the scan of `a` goes on with the scan of `b`, which is the one scan of both. -/
theorem fragmentationChangesNothing : Obligations.FragmentationChangesNothing := by
  unfold Obligations.FragmentationChangesNothing
  intro a b between s hs hfit hquiet
  have hab := hfit
  rw [List.length_append] at hab
  obtain ⟨u, ra, hu, hra, hscanA⟩ := exec_rx_of_fits (d := a) hs (by omega)
  obtain ⟨w, rab, hw, hrab, hscanAB⟩ := exec_rx_of_fits hs hfit
  have hctrlU : u.block.ctrl = s.block.ctrl := exec_ctrl hu nofun
  obtain ⟨v, hv, huv⟩ := execAll_quiet between u (fun i hi => hctrlU ▸ hquiet i hi)
  have hsame : v.block.content = u.block.content ∧ v.block.ctrl = s.block.ctrl
      ∧ v.block.capacity = s.block.capacity := by
    rw [huv]
    exact ⟨rfl, hctrlU, exec_capacity hu⟩
  obtain ⟨hQ, hctrlV, hcapacityV⟩ := hsame
  have hfitB : v.block.len + b.length ≤ v.block.capacity := by
    have hcounts := hscanA.counts
    rw [List.length_append, ← hQ, Block.content_length, Block.content_length] at hcounts
    omega
  obtain ⟨x, rb, hx, hrb, hscanB⟩ := exec_rx_of_fits ((exec_inv hs hu).of_sameButOvf huv) hfitB
  rw [hQ, hctrlV] at hscanB
  have hscan := hscanA.append hscanB
  rw [List.append_assoc] at hscan
  obtain ⟨hev, hframes, hskips, hleft⟩ := hscan.unique hscanAB
  exact ⟨u, v, x, w, ra, rb, rab, hu, hv, hx, hw, hra, hrb, hrab, hev, hframes, hskips, hleft⟩

/-! ### Overflow (43_synchronizer R147) -/

/-- A state and the one it goes to fix the result returned between them. -/
theorem State.Returned.result_unique {s t : State} {r r' : Result} (h : s.Returned t r) (h' : s.Returned t r') :
    r = r' :=
  List.singleton_injective (List.append_cancel_left (h.1.symm.trans h'.1))

theorem drops_ne_zero_of_status {b : Block} {d : List Byte}
    (h : (if b.drops d > 0 then Status.capacityExceeded else .ok) = .capacityExceeded) : b.drops d ≠ 0 := by
  intro h0
  rw [h0] at h
  cases h

/-- Every command answers, and CAPACITY_EXCEEDED only as a PUSH or an RX that drops bytes. -/
theorem exec_returns_status (i : Instr) (s : State) :
    ∃ t r, exec i s = .next t ∧ s.Returned t r
      ∧ (r.resp.status = .capacityExceeded → ∃ d, (i = .push d ∨ i = .rx d) ∧ s.block.drops d ≠ 0) := by
  cases i with
  | nop | cksum _ | status | flush | wrctrl _ _ _ => exact ⟨_, _, rfl, ⟨rfl, rfl⟩, nofun⟩
  | encode id ty din =>
    cases he : encodeFrame (id.setWidth 8) (ty.setWidth 8) din with
    | none => exact ⟨_, _, exec_encode_none s he, ⟨rfl, rfl⟩, nofun⟩
    | some fr => exact ⟨_, _, exec_encode_some s he, ⟨rfl, rfl⟩, nofun⟩
  | decode din =>
    cases hv : s.verdict din with
    | invalid reason => exact ⟨_, _, exec_decode_invalid hv, ⟨rfl, rfl⟩, nofun⟩
    | ok m => exact ⟨_, _, exec_decode_ok hv, ⟨rfl, rfl⟩, nofun⟩
  | peek cnt =>
    rcases Nat.lt_or_ge s.block.len cnt.toNat with hn | hn
    · exact ⟨_, _, exec_peek_underflow hn, ⟨rfl, rfl⟩, nofun⟩
    · exact ⟨_, _, exec_peek_ok hn, ⟨rfl, rfl⟩, nofun⟩
  | seek cnt =>
    rcases Nat.lt_or_ge s.block.len cnt.toNat with hn | hn
    · exact ⟨_, _, exec_seek_underflow hn, ⟨rfl, rfl⟩, nofun⟩
    · exact ⟨_, _, exec_seek_ok hn, ⟨rfl, rfl⟩, nofun⟩
  | push d => exact ⟨_, _, exec_push d s, ⟨rfl, rfl⟩, fun hd => ⟨d, .inl rfl, drops_ne_zero_of_status hd⟩⟩
  | rx d =>
    exact ⟨_, _, exec_rx_eq_respond d s, returned_rx d s, fun hd => ⟨d, .inr rfl, drops_ne_zero_of_status hd⟩⟩

/-- Where a CAPACITY_EXCEEDED that a command returned comes from. -/
theorem exec_capacityExceeded {i : Instr} {s t : State} {r : Result} (h : exec i s = .next t) (hr : s.Returned t r)
    (hstatus : r.resp.status = .capacityExceeded) : ∃ d, (i = .push d ∨ i = .rx d) ∧ s.block.drops d ≠ 0 := by
  obtain ⟨t', r', ht', hr', hsource⟩ := exec_returns_status i s
  obtain rfl : t = t' := Host.Outcome.next.inj (h.symm.trans ht')
  exact hsource (hr.result_unique hr' ▸ hstatus)

/-- Without a PUSH, less than a frame stays less than a frame: RX leaves no more (43_synchronizer R145). -/
theorem exec_len_lt {i : Instr} {s t : State} (hlen : s.block.len < 256) (hpush : ∀ d, i ≠ .push d)
    (h : exec i s = .next t) : t.block.len < 256 := by
  rcases exec_block_cases h with hb | ⟨d, hi, -⟩ | ⟨n, -, -, hb⟩ | ⟨-, hb⟩ | ⟨d, -, hb⟩ | ⟨a, b, c, -, hb⟩
  · rwa [hb]
  · exact absurd hi (hpush d)
  · rw [hb, Block.fifoSeek_len]; omega
  · rw [hb, Block.fifoFlush_len]; decide
  · rw [hb]; exact rxScan_len_lt d s
  · rwa [hb]

/-- Settles O50: OK is an RX that drops nothing, and a chunk of at most C - 255 bytes fits behind 255. -/
theorem rxDropsNothingWithinRoom : Obligations.RxDropsNothingWithinRoom := by
  unfold Obligations.RxDropsNothingWithinRoom
  constructor
  · intro d s hs
    have hb : s.block.len ≤ s.block.capacity := hs.2.1.1
    exact ⟨_, _, exec_rx_eq_respond d s, returned_rx d s, Nat.le_of_lt_succ (rxScan_len_lt d s),
      rxResult_status_ok_iff d hb, Block.drops_eq_zero_iff d hb⟩
  · intro i s t r hs hlen hpush hchunk h hr
    refine ⟨fun hstatus => ?_, Nat.le_of_lt_succ (exec_len_lt (Nat.lt_succ_of_le hlen) hpush h)⟩
    obtain ⟨d, hi | hi, hdrops⟩ := exec_capacityExceeded h hr hstatus
    · exact hpush d hi
    · have hd := hchunk d hi
      obtain ⟨⟨hC, -⟩, ⟨hb, -, -⟩, -⟩ := hs
      exact hdrops ((Block.drops_eq_zero_iff d hb).mpr (by omega))

/-! ### Resynchronisation (43_synchronizer R150) -/

theorem le16_injective {lo hi lo' hi' : Byte} (h : le16 lo hi = le16 lo' hi') : lo = lo' ∧ hi = hi' := by
  have hnat := congrArg BitVec.toNat h
  rw [le16_toNat, le16_toNat] at hnat
  constructor <;> bv_omega

/-- A valid frame with one byte of its checksum changed is no valid frame: the window and so its checksum are as they
were. -/
theorem not_validFrame_set_checksum {y : List Byte} {k : Nat} {c : Byte} (hv : ValidFrame y) (hk : k = 253 ∨ k = 254)
    (hc : c ≠ byteAt y k) : ¬ ValidFrame (y.set k c) := by
  have hsame (j : Nat) (hj : j < 253) : byteAt (y.set k c) j = byteAt y j := byteAt_set_of_ne c (by omega)
  have hL : frameLength (y.set k c) = frameLength y := by
    rw [frameLength, hsame _ (by decide), hsame _ (by decide), frameLength]
  obtain ⟨hlen, -, hl, hck, -⟩ := hv
  rintro ⟨-, -, -, hck', -⟩
  have hwindow : slice (y.set k c) 3 (5 + (frameLength y).toNat) = slice y 3 (5 + (frameLength y).toNat) :=
    slice_congr List.length_set fun j _ hj _ => hsame j (by omega)
  rw [hL, hwindow, hck] at hck'
  obtain ⟨hlow, hhigh⟩ := le16_injective hck'
  rcases hk with rfl | rfl
  · rw [byteAt_set_self c (by omega)] at hlow
    exact hc hlow.symm
  · rw [byteAt_set_self c (by omega)] at hhigh
    exact hc hhigh.symm

/-- The scan of a corrupted frame with the valid one behind it: 256 slides, then the valid frame. -/
theorem Scans.of_corruptFrame {y : List Byte} {k : Nat} {c : Byte} (ctrl : Ctrl) (hv : ValidFrame y)
    (hk : k = 253 ∨ k = 254) (hc : c ≠ byteAt y k)
    (hwindows : ∀ o, 1 ≤ o → o ≤ 255 → ¬ ValidFrame (slice (y.set k c ++ y) o (o + 256))) :
    Scans ctrl (y.set k c ++ y) (dispatch ctrl (messageOf y)) 1 256 [] := by
  have hlen : (y.set k c).length = 256 := List.length_set.trans hv.1
  refine Scans.slide 256 ?long ?bad ?rest (skips := 0)
  case long => rw [List.length_append, hlen, hv.1]; decide
  case bad =>
    intro o ho
    cases o with
    | zero =>
      have hfirst : slice (y.set k c ++ y) 0 (0 + 256) = y.set k c := List.take_left' hlen
      rw [hfirst]
      exact not_validFrame_set_checksum hv hk hc
    | succ o => exact hwindows (o + 1) (by omega) (by omega)
  case rest =>
    rw [List.drop_left' hlen]
    exact Scans.of_validFrame ctrl hv

/-- Settles O51: RX of the two frames is that scan, and the event is the fan-out's of the valid frame. -/
theorem resyncSkipsCorruptFrame : Obligations.ResyncSkipsCorruptFrame := by
  unfold Obligations.ResyncSkipsCorruptFrame
  intro s y k c hs hempty hroom hv hk hc hwindows
  have hlen : (y.set k c ++ y).length = 512 := by rw [List.length_append, List.length_set, hv.1]
  have hscan : Scans s.block.ctrl (s.block.content ++ (y.set k c ++ y)) (dispatch s.block.ctrl (messageOf y))
      1 256 [] := by
    rw [Block.content_of_len_zero hempty, List.nil_append]
    exact Scans.of_corruptFrame s.block.ctrl hv hk hc hwindows
  obtain ⟨t, ht, hreturned, hleft, -, -⟩ := exec_rx_of_scans hs (by omega) hscan
  refine ⟨t, _, ht, hreturned, by rw [hlen]; rfl, ?_, fun hid hty hen => ?_, fun hid hty hen => ?_⟩
  · rw [← t.block.content_length, hleft, List.length_nil]
  · have h01 : byteAt y 2 = 0#8 ∨ byteAt y 2 = 1#8 := by
      obtain ⟨-, -, -, -, h01 | ⟨h2, -⟩⟩ := hv
      · exact h01
      · exact absurd h2 hty
    simp only [dispatch_messageOf s.block.ctrl hv, if_neg (Nat.not_lt.mpr hid), if_pos h01, if_pos hen]
  · have h01 : ¬ (byteAt y 2 = 0#8 ∨ byteAt y 2 = 1#8) := by rw [hty]; decide
    simp only [dispatch_messageOf s.block.ctrl hv, if_neg (Nat.not_lt.mpr hid), if_neg h01, if_pos hen]

end Sys2Proof.Machine
end

section
/-! PROOFS. The control commands and the two ILLEGAL answers (44_control R160 to R164): which words match no row, told
by the fields of the word. -/

namespace Sys2Proof

/-! ### A word is compared field by field -/

theorem extractLsb'_eq_iff_bits {a b : Word} {start len : Nat} :
    a.extractLsb' start len = b.extractLsb' start len ↔
      ∀ i, start ≤ i → i < start + len → a.getLsbD i = b.getLsbD i := by
  constructor
  · exact fun h i hlo hhi => getLsbD_eq_of_extractLsb'_eq h hlo hhi
  · intro h
    apply BitVec.eq_of_getLsbD_eq
    intro i hi
    simp only [BitVec.getLsbD_extractLsb', hi, decide_true, Bool.true_and]
    exact h (start + i) (by omega) (by omega)

theorem extractLsb'_eq_split {a b : Word} (start m n : Nat) :
    a.extractLsb' start (m + n) = b.extractLsb' start (m + n) ↔
      a.extractLsb' start m = b.extractLsb' start m ∧ a.extractLsb' (start + m) n = b.extractLsb' (start + m) n := by
  simp only [extractLsb'_eq_iff_bits]
  constructor
  · exact fun h => ⟨fun i hlo hhi => h i hlo (by omega), fun i hlo hhi => h i (by omega) (by omega)⟩
  · rintro ⟨hlow, hhigh⟩ i hlo hhi
    rcases Nat.lt_or_ge i (start + m) with hi | hi
    · exact hlow i hlo hi
    · exact hhigh i hi (by omega)

theorem word_eq_iff_extractLsb' {a b : Word} : a = b ↔ a.extractLsb' 0 32 = b.extractLsb' 0 32 := by
  simp only [BitVec.extractLsb'_eq_self]

/-- Two words are equal when OP, ID, TY, CNT and RSV are (30_encoding R61). -/
theorem word_eq_iff_fields {a b : Word} :
    a = b ↔ a.extractLsb' 0 4 = b.extractLsb' 0 4 ∧ a.extractLsb' 4 2 = b.extractLsb' 4 2
      ∧ a.extractLsb' 6 2 = b.extractLsb' 6 2 ∧ a.extractLsb' 8 16 = b.extractLsb' 8 16
      ∧ a.extractLsb' 24 8 = b.extractLsb' 24 8 := by
  rw [word_eq_iff_extractLsb', extractLsb'_eq_split 0 4 28, extractLsb'_eq_split 4 2 26, extractLsb'_eq_split 6 2 24,
    extractLsb'_eq_split 8 16 8]

/-- Two words are equal when the parts that WRCTRL's row tells apart are (44_control R161). -/
theorem word_eq_iff_wrctrlFields {a b : Word} :
    a = b ↔ a.extractLsb' 0 4 = b.extractLsb' 0 4 ∧ a.extractLsb' 4 4 = b.extractLsb' 4 4
      ∧ a.extractLsb' 8 3 = b.extractLsb' 8 3 ∧ a.extractLsb' 11 13 = b.extractLsb' 11 13
      ∧ a.extractLsb' 24 8 = b.extractLsb' 24 8 := by
  rw [word_eq_iff_extractLsb', extractLsb'_eq_split 0 4 28, extractLsb'_eq_split 4 4 24, extractLsb'_eq_split 8 3 21,
    extractLsb'_eq_split 11 13 8]

/-! ### The row of a word, told by its fields -/

/-- The OP value of an operation (30_encoding R62). -/
def Op.code : Op → BitVec 4
  | .nop => 0x0#4
  | .cksum => 0x1#4
  | .encode => 0x2#4
  | .decode => 0x3#4
  | .push => 0x4#4
  | .status => 0x5#4
  | .peek => 0x6#4
  | .seek => 0x7#4
  | .flush => 0x8#4
  | .rx => 0x9#4
  | .wrctrl => 0xA#4

/-- What the row of an operation asks of bits 23:4: those that hold none of the command's operands are 0 (30_encoding
R61, R62). -/
def Op.OperandsOk (cmd : Word) : Op → Prop
  | .nop | .decode | .status | .flush =>
    cmd.extractLsb' 4 2 = 0#2 ∧ cmd.extractLsb' 6 2 = 0#2 ∧ cmd.extractLsb' 8 16 = 0#16
  | .cksum | .push | .peek | .seek | .rx => cmd.extractLsb' 4 2 = 0#2 ∧ cmd.extractLsb' 6 2 = 0#2
  | .encode => True
  | .wrctrl => cmd.extractLsb' 4 4 = 0#4 ∧ cmd.extractLsb' 11 13 = 0#13

/-- A word names an operation when its OP is the operation's, the row allows bits 23:4, and RSV is 0. -/
theorem opOf_eq_some_iff_fields (cmd : Word) (op : Op) :
    opOf cmd = some op ↔ cmd.extractLsb' 0 4 = op.code ∧ op.OperandsOk cmd ∧ cmd.extractLsb' 24 8 = 0#8 := by
  have ones2 (x : BitVec 2) : x &&& 0x3#2 = x := BitVec.and_allOnes
  have ones4 (x : BitVec 4) : x &&& 0xF#4 = x := BitVec.and_allOnes
  have ones8 (x : BitVec 8) : x &&& 0xFF#8 = x := BitVec.and_allOnes
  have ones13 (x : BitVec 13) : x &&& 0x1FFF#13 = x := BitVec.and_allOnes
  have ones16 (x : BitVec 16) : x &&& 0xFFFF#16 = x := BitVec.and_allOnes
  rw [opOf_eq_some_iff]
  cases op with
  | nop | decode | status | flush =>
    rw [word_eq_iff_fields]
    simp [Op.row, Op.code, Op.OperandsOk, BitVec.extractLsb'_and, ones2, ones4, ones8, ones16, and_assoc]
  | cksum | push | peek | seek | rx =>
    rw [word_eq_iff_fields]
    simp [Op.row, Op.code, Op.OperandsOk, BitVec.extractLsb'_and, ones2, ones4, ones8, and_assoc]
  | encode =>
    rw [word_eq_iff_fields]
    simp [Op.row, Op.code, Op.OperandsOk, BitVec.extractLsb'_and, ones4, ones8]
  | wrctrl =>
    rw [word_eq_iff_wrctrlFields]
    simp [Op.row, Op.code, Op.OperandsOk, BitVec.extractLsb'_and, ones4, ones8, ones13, and_assoc]

theorem Op.code_toNat_lt (op : Op) : op.code.toNat < 11 := by cases op <;> decide

/-- The word of an OP alone names the operation. -/
theorem opOf_code (op : Op) : opOf (op.code.setWidth 32) = some op := by cases op <;> decide

theorem Op.code_injective : Function.Injective Op.code := by
  intro a b h
  exact Option.some_injective _ (by rw [← opOf_code a, ← opOf_code b, h])

/-- Every OP below 0xB is the OP of a row. -/
theorem exists_row_of_op_lt : ∀ v : BitVec 4, v.toNat < 11 → ∃ r ∈ opcodeRows, v = r.op.code := by decide

/-- A word whose OP is an operation's names that operation or none. -/
theorem opOf_eq_none_iff_of_op {cmd : Word} {op : Op} (h : cmd.extractLsb' 0 4 = op.code) :
    opOf cmd = none ↔ ¬ (op.OperandsOk cmd ∧ cmd.extractLsb' 24 8 = 0#8) := by
  rw [Option.eq_none_iff_forall_ne_some]
  constructor
  · exact fun hnone hok => hnone op ((opOf_eq_some_iff_fields cmd op).mpr ⟨h, hok⟩)
  · intro hbad op' hop
    obtain ⟨hcode, hok⟩ := (opOf_eq_some_iff_fields cmd op').mp hop
    obtain rfl := Op.code_injective (h.symm.trans hcode)
    exact hbad hok

/-- A word whose OP is no row's names no operation. -/
theorem opOf_eq_none_of_op_ge {cmd : Word} (h : 11 ≤ (cmd.extractLsb' 0 4).toNat) : opOf cmd = none := by
  rw [Option.eq_none_iff_forall_ne_some]
  intro op hop
  obtain ⟨hcode, -⟩ := (opOf_eq_some_iff_fields cmd op).mp hop
  exact absurd (hcode ▸ op.code_toNat_lt) (Nat.not_lt.mpr h)

theorem opOf_eq_none_iff_no_row (cmd : Word) : opOf cmd = none ↔ ∀ r ∈ opcodeRows, r.matchesWord cmd = false := by
  simp [opOf]

/-- A word that names an operation is refused with another number of data-in bytes than E(CMD) (44_control R163). -/
theorem decode_of_wrong_length {t : Transaction} {op : Op} (hop : opOf t.cmd = some op)
    (hlen : t.din.length ≠ op.dataLength t.cmd) : decode t = .error .dataLength := by
  simp [decode, hop, hlen]

end Sys2Proof

namespace Sys2Proof.Machine

/-! ### The two ILLEGAL answers -/

/-- Among the words with the OP of a row, R162 lists those with a bit the row forbids. -/
theorem reservedWord_iff_of_op {cmd : Word} {op : Op} (h : cmd.extractLsb' 0 4 = op.code) :
    ReservedWord cmd ↔ ¬ (op.OperandsOk cmd ∧ cmd.extractLsb' 24 8 = 0#8) := by
  rw [and_comm]
  cases op with
  | nop | decode | status | flush => simp [ReservedWord, h, Op.code, Op.OperandsOk, imp_iff_not_or, or_assoc]
  | cksum | push | peek | seek | rx | wrctrl => simp [ReservedWord, h, Op.code, Op.OperandsOk, imp_iff_not_or]
  | encode => simp [ReservedWord, h, Op.code, Op.OperandsOk]

/-- The words that name no operation are those 44_control R162 lists. -/
theorem opOf_eq_none_iff_reservedWord (cmd : Word) : opOf cmd = none ↔ ReservedWord cmd := by
  rcases Nat.lt_or_ge (cmd.extractLsb' 0 4).toNat 11 with hlt | hge
  · obtain ⟨r, -, hcode⟩ := exists_row_of_op_lt _ hlt
    exact (opOf_eq_none_iff_of_op hcode).trans (reservedWord_iff_of_op hcode).symm
  · exact iff_of_true (opOf_eq_none_of_op_ge hge) (.inl hge)

/-- A transaction that does not decode is taken and answered ILLEGAL, whichever check fails (44_control R164). -/
theorem step_of_decode_error {s : State} {t : Transaction} {rest : List HostInput} {e : DecodeError}
    (hp : s.pending = .transaction t :: rest) (hd : decode t = .error e) :
    step s = .next { s with pending := rest }.answeredIllegal := by
  rw [step_transaction hp, performTransaction_error _ hd]
  rfl

/-- Settles O11: the rows and the list of R162 agree field by field, and such a word fails the first check. -/
theorem reservedWordsAnswerIllegal : Obligations.ReservedWordsAnswerIllegal := by
  unfold Obligations.ReservedWordsAnswerIllegal
  constructor
  · exact fun cmd => (opOf_eq_none_iff_no_row cmd).symm.trans (opOf_eq_none_iff_reservedWord cmd)
  · intro s t rest hp hrow
    exact step_of_decode_error hp (decode_of_opOf_eq_none ((opOf_eq_none_iff_no_row t.cmd).mpr hrow))

/-- Settles O12: the stated number is E(CMD), so the transaction fails the second check. -/
theorem wrongDataLengthAnswersIllegal : Obligations.WrongDataLengthAnswersIllegal := by
  unfold Obligations.WrongDataLengthAnswersIllegal
  intro s t rest op hp hop hlen
  rw [← Op.dataLength_eq t.cmd op] at hlen
  exact step_of_decode_error hp (decode_of_wrong_length hop hlen)

/-! ### NOP and WRCTRL -/

/-- Settles O22. -/
theorem nopReturnsOkAlone : Obligations.NopReturnsOkAlone := by
  unfold Obligations.NopReturnsOkAlone
  exact exec_nop

/-- Settles O23: the next state is the one `exec_wrctrl` gives, and OVF there is kept unless W_CLR_OVF is 1. -/
theorem wrctrlWritesEnablesAndClearsOverflow : Obligations.WrctrlWritesEnablesAndClearsOverflow := by
  unfold Obligations.WrctrlWritesEnablesAndClearsOverflow
  intro a b c s
  refine ⟨_, exec_wrctrl a b c s, ⟨rfl, rfl⟩, rfl, rfl, fun hclr => ?_, fun hkeep => ?_, rfl, rfl⟩
  · simp [ovfAfterWrctrl_eq, hclr]
  · simp [ovfAfterWrctrl_eq, hkeep]

end Sys2Proof.Machine
end

section
/-! PROOFS. Errors and the idle block (60_exceptions R170 to R173, R182): an error is either raised before anything is
written, or it is CAPACITY_EXCEEDED, which keeps what PUSH and RX did. -/

namespace Sys2Proof.Machine

/-! ### The idle block -/

/-- Settles O3: the step without an input is `step_idle`. -/
theorem idleBlockHoldsState : Obligations.IdleBlockHoldsState := by
  unfold Obligations.IdleBlockHoldsState
  exact fun _ => step_idle

/-! ### The errors of a command -/

/-- A command ends in one of three ways: OK, an error raised with no effect and no data, or CAPACITY_EXCEEDED
(60_exceptions R171). -/
theorem exec_ok_or_raises_or_capacityExceeded (i : Instr) (s : State) :
    ∃ t r, exec i s = .next t ∧ s.Returned t r
      ∧ (r.resp.status = .ok ∨ (t.block = s.block ∧ r.dout = [] ∧ r.events = [])
        ∨ r.resp.status = .capacityExceeded) := by
  have hstatus (d : List Byte) := ite_eq_or_eq (s.block.drops d > 0) Status.capacityExceeded .ok
  cases i with
  | nop | cksum _ | status | flush | wrctrl _ _ _ => exact ⟨_, _, rfl, ⟨rfl, rfl⟩, .inl rfl⟩
  | encode id ty din =>
    cases he : encodeFrame (id.setWidth 8) (ty.setWidth 8) din with
    | none => exact ⟨_, _, exec_encode_none s he, ⟨rfl, rfl⟩, .inr (.inl ⟨rfl, rfl, rfl⟩)⟩
    | some fr => exact ⟨_, _, exec_encode_some s he, ⟨rfl, rfl⟩, .inl rfl⟩
  | decode din =>
    cases hv : s.verdict din with
    | invalid reason => exact ⟨_, _, exec_decode_invalid hv, ⟨rfl, rfl⟩, .inr (.inl ⟨rfl, rfl, rfl⟩)⟩
    | ok m => exact ⟨_, _, exec_decode_ok hv, ⟨rfl, rfl⟩, .inl rfl⟩
  | peek cnt =>
    rcases Nat.lt_or_ge s.block.len cnt.toNat with hn | hn
    · exact ⟨_, _, exec_peek_underflow hn, ⟨rfl, rfl⟩, .inr (.inl ⟨rfl, rfl, rfl⟩)⟩
    · exact ⟨_, _, exec_peek_ok hn, ⟨rfl, rfl⟩, .inl rfl⟩
  | seek cnt =>
    rcases Nat.lt_or_ge s.block.len cnt.toNat with hn | hn
    · exact ⟨_, _, exec_seek_underflow hn, ⟨rfl, rfl⟩, .inr (.inl ⟨rfl, rfl, rfl⟩)⟩
    · exact ⟨_, _, exec_seek_ok hn, ⟨rfl, rfl⟩, .inl rfl⟩
  | push d => exact ⟨_, _, exec_push d s, ⟨rfl, rfl⟩, (hstatus d).symm.imp_right .inr⟩
  | rx d => exact ⟨_, _, exec_rx_eq_respond d s, returned_rx d s, (hstatus d).symm.imp_right .inr⟩

/-- A push that drops a byte sets OVF (42_fifo R120). -/
theorem Block.fifoPush_ovf_of_drops {b : Block} {d : List Byte} (h : b.drops d ≠ 0) : (b.fifoPush d).ovf = true := by
  rw [Block.fifoPush_ovf, ovfAfterPush_eq, decide_eq_true (Nat.pos_of_ne_zero h), Bool.or_true]

section
variable {i : Instr} {s t : State} {r : Result}

/-- An error of a command other than CAPACITY_EXCEEDED has no effect on the block and returns no data. -/
theorem exec_error_without_effect (h : exec i s = .next t) (hr : s.Returned t r) (hok : r.resp.status ≠ .ok)
    (hcap : r.resp.status ≠ .capacityExceeded) : t.block = s.block ∧ r.dout = [] ∧ r.events = [] := by
  obtain ⟨t', r', ht', hr', hends⟩ := exec_ok_or_raises_or_capacityExceeded i s
  obtain rfl : t = t' := Host.Outcome.next.inj (h.symm.trans ht')
  obtain rfl : r = r' := hr.result_unique hr'
  exact (hends.resolve_left hok).resolve_right hcap

/-- CAPACITY_EXCEEDED sets OVF and keeps what a PUSH pushed, or what an RX pushed, scanned and emitted. -/
theorem exec_capacityExceeded_effect (h : exec i s = .next t) (hr : s.Returned t r)
    (hcap : r.resp.status = .capacityExceeded) :
    t.block.ovf = true
      ∧ ((∃ d, i = .push d ∧ t.block = s.block.fifoPush d)
        ∨ ∃ d, i = .rx d ∧ t.block = (s.rxScan d).state.block ∧ r.events = (s.rxScan d).events) := by
  obtain ⟨d, rfl | rfl, hdrops⟩ := exec_capacityExceeded h hr hcap
  · cases h
    exact ⟨Block.fifoPush_ovf_of_drops hdrops, .inl ⟨d, rfl, rfl⟩⟩
  · cases h
    obtain rfl : r = s.rxResult d := hr.result_unique (returned_rx d s)
    exact ⟨(scan_ovf _).trans (Block.fifoPush_ovf_of_drops hdrops), .inr ⟨d, rfl, rfl, rfl⟩⟩

end

/-! ### The errors of a transaction -/

/-- A transaction's one result is ILLEGAL's, or the one its command returned. -/
theorem step_transaction_cases {s u : State} {t : Transaction} {rest : List HostInput} {r : Result}
    (hp : s.pending = .transaction t :: rest) (h : step s = .next u) (hr : u.results = s.results ++ [r]) :
    (u.block = s.block ∧ r = { resp := { status := .illegal } })
    ∨ ∃ i, decode t = .ok i ∧ exec i { s with pending := rest } = .next u
        ∧ State.Returned { s with pending := rest } u r := by
  rw [step_transaction hp] at h
  cases hd : decode t with
  | error e =>
    rw [performTransaction_error _ hd] at h
    cases h
    exact .inl ⟨rfl, (List.singleton_injective (List.append_cancel_left hr)).symm⟩
  | ok i =>
    rw [performTransaction_ok _ hd] at h
    obtain ⟨u', r', hu', hr'⟩ := exec_returns i { s with pending := rest }
    obtain rfl : u = u' := Host.Outcome.next.inj (h.symm.trans hu')
    exact .inr ⟨i, rfl, h, hr, hr'.2⟩

/-- Settles O20: ILLEGAL writes nothing, and a command's error is one of `exec_error_without_effect` or of
`exec_capacityExceeded_effect`. -/
theorem errorsLeaveStateUnchanged : Obligations.ErrorsLeaveStateUnchanged := by
  unfold Obligations.ErrorsLeaveStateUnchanged
  intro s u t rest r hp h hr
  rcases step_transaction_cases hp h hr with ⟨hblock, rfl⟩ | ⟨i, hd, hexec, hret⟩
  · exact ⟨fun _ _ => ⟨hblock, rfl, rfl⟩, nofun⟩
  · have hraised := exec_error_without_effect hexec hret
    refine ⟨hraised, fun hcap => ?_⟩
    obtain ⟨hovf, ⟨d, rfl, hpush⟩ | ⟨d, rfl, hscan, hevents⟩⟩ := exec_capacityExceeded_effect hexec hret hcap
    · exact ⟨hovf, .inl ⟨d, hd, hpush⟩⟩
    · exact ⟨hovf, .inr ⟨d, hd, hscan, hevents⟩⟩

end Sys2Proof.Machine
end

section
/-! PROOFS. Reset (70_reset R190, R191; 10_state R34): the reset action and the reset state put the same values into every
state element but MEM, and the reset action is what FLUSH and WRCTRL 0, 0, 0 do to the block. -/

namespace Sys2Proof.Machine

/-! ### The reset action -/

/-- Reset is the reset state of the block's own capacity, over the bytes MEM holds (10_state R34, entry 7). -/
theorem Block.resetAction_eq_atReset (b : Block) : b.resetAction = { Block.atReset b.capacity with mem := b.mem } := rfl

/-- Reset is FifoFlush and both enables cleared (70_reset R191). -/
theorem Block.resetAction_eq_fifoFlush (b : Block) : b.resetAction = { b.fifoFlush with ctrl := ⟨false, false⟩ } := rfl

/-- Settles O2: a reset step is `step_reset`, and the reset state, with nothing presented, is idle until it is given a
transaction. -/
theorem resetPutsEveryElement : Obligations.ResetPutsEveryElement := by
  unfold Obligations.ResetPutsEveryElement
  refine ⟨fun s rest hp => ?_, ?_, fun t => ?_, step_idle State.reset_pending⟩
  · refine ⟨_, step_reset hp, ?_, rfl, rfl, rfl⟩
    rw [State.performReset_block, Block.resetAction_eq_atReset]
    exact ⟨rfl, rfl, rfl, rfl, rfl, rfl⟩
  · rw [State.reset_block]
    exact ⟨rfl, rfl, rfl, rfl, rfl, rfl, State.reset_results⟩
  · obtain ⟨u, r, hu, hresults, -⟩ := step_transaction_returns (State.present_pending State.reset (.transaction t))
    exact ⟨u, r, hu, hresults⟩

/-! ### FLUSH, then WRCTRL 0, 0, 0 -/

/-- WRCTRL that does not clear OVF writes the two enables and no other element of the block (44_control R161). -/
theorem exec_wrctrl_keep_ovf (a b : Bool) (s : State) :
    exec (.wrctrl a b false) s = .next ((s.withBlock { s.block with ctrl := ⟨a, b⟩ }).respond { resp := {} }) := by
  rw [exec_wrctrl, ovfAfterWrctrl_eq, Bool.not_false, Bool.and_true]

/-- Settles O24: FLUSH has cleared OVF, so WRCTRL only has the enables left to clear. -/
theorem resetIsFlushThenClearEnables : Obligations.ResetIsFlushThenClearEnables := by
  unfold Obligations.ResetIsFlushThenClearEnables
  intro s
  have hreset : s.performReset.block = { s.block.fifoFlush with ctrl := ⟨false, false⟩ } :=
    s.block.resetAction_eq_fifoFlush
  exact ⟨_, _, exec_flush s, exec_wrctrl_keep_ovf false false _, hreset.symm, hreset, s.block.content_fifoFlush, rfl⟩

end Sys2Proof.Machine
end
